-- ==== Sys2Proof/Word.lean ====
section
/-! DEFINITION. The two word types of the engine. Every value of the instruction set is an unsigned integer of a stated
width (00_scope.md R8): general registers, timers and memory bytes are 8 bits; `pc`, `I`, stack slots and opcodes are 16. -/

namespace Sys2Proof

/-- An 8-bit value: a general register, a timer, a memory byte (00_scope.md R5, REG_WIDTH and TIMER_WIDTH). -/
abbrev Byte := BitVec 8

/-- A 16-bit value: `pc`, `I`, a stack slot, an opcode (00_scope.md R5, PC_WIDTH, I_WIDTH, STACK_SLOT_WIDTH). -/
abbrev Word := BitVec 16

end Sys2Proof
end

