-- ==== Sys2Proof/Config.lean ====
section
/-! DEFINITION. What is fixed for the engine (00_scope.md R5) and its two open parameters (00_scope.md R6). The open
parameters have no body, so no proof can see a value of them and every claim holds whatever they are. -/

namespace Sys2Proof.Config

/-- MEM_SIZE: 4096 bytes; an address is taken modulo it, the 12-bit mask 0x0FFF (00_scope.md R5, 20_memory.md R50, R51). -/
def memSize : Nat := 4096

/-- PC_RESET and PROG_BASE: 0x200 (00_scope.md R5, 70_reset_and_hazards.md R261). -/
def progBase : Word := 0x200

/-- PROG_MAX: 3584 bytes, the longest image a load accepts (00_scope.md R5, 20_memory.md R66). -/
def progMax : Nat := 3584

/-- FONT_BASE: 0x050, the address of the glyph of digit 0 (00_scope.md R5, 20_memory.md R63). -/
def fontBase : Word := 0x050

/-- FONT_GLYPH_BYTES: 5 (00_scope.md R5). -/
def glyphBytes : Word := 5

/-- The open parameter FONT: the 80 glyph bytes found at 0x050 to 0x09F after reset (00_scope.md R6, 20_memory.md R63,
92_eei_decisions.md D16). DESIGN CHOICE, safe: the bytes are left free (assumption log 1). -/
opaque font : Vector Byte 80

/-- The default value the spec gives FONT (20_memory.md R63), from general knowledge and not from the source. Nothing of
the model uses it; a claim about a glyph's pixels names it in a premise `Config.font = Config.conventionalFont`. -/
def conventionalFont : Vector Byte 80 :=
  ⟨#[0xF0, 0x90, 0x90, 0x90, 0xF0] ++ #[0x20, 0x60, 0x20, 0x20, 0x70] ++
   #[0xF0, 0x10, 0xF0, 0x80, 0xF0] ++ #[0xF0, 0x10, 0xF0, 0x10, 0xF0] ++
   #[0x90, 0x90, 0xF0, 0x10, 0x10] ++ #[0xF0, 0x80, 0xF0, 0x10, 0xF0] ++
   #[0xF0, 0x80, 0xF0, 0x90, 0xF0] ++ #[0xF0, 0x10, 0x20, 0x40, 0x40] ++
   #[0xF0, 0x90, 0xF0, 0x90, 0xF0] ++ #[0xF0, 0x90, 0xF0, 0x10, 0xF0] ++
   #[0xF0, 0x90, 0xF0, 0x90, 0x90] ++ #[0xE0, 0x90, 0xE0, 0x90, 0xE0] ++
   #[0xF0, 0x80, 0x80, 0x80, 0xF0] ++ #[0xE0, 0x90, 0x90, 0x90, 0xE0] ++
   #[0xF0, 0x80, 0xF0, 0x80, 0xF0] ++ #[0xF0, 0x80, 0xF0, 0x80, 0x80], rfl⟩

/-- The open parameter RNG: the byte that draw number `d` of the random source gives (00_scope.md R6, 10_state.md R34,
92_eei_decisions.md D18). A free value of the d-th draw; `State.draws` counts the draws (assumption log 2). -/
opaque randomByte : Nat → Byte

end Sys2Proof.Config
end

