-- ==== Sys2Proof/Syntax.lean ====
section
/-! DEFINITION. The instructions: one constructor for each of the 34 rows of the opcode map (30_encoding.md R86 and
spec/opcode_table.json), in the table's order. Operands keep the names of the fields (30_encoding.md R81): `x` and `y` are
register indices, `kk` an 8-bit immediate, `nnn` a 12-bit immediate already zero-extended to the 16 bits it is used at
(30_encoding.md R82), `n` a count. `WellFormed.lean` bounds `nnn` and `n`. -/

namespace Sys2Proof

/-- A register index 0..15; every value is legal in every register field (30_encoding.md R83). -/
abbrev Reg := Fin 16

/-- The closed set of 34 instructions (00_scope.md R3). -/
inductive Instr where
  /-- 00E0 `CLS` -/
  | cls
  /-- 00EE `RET` -/
  | ret
  /-- 1nnn `JP nnn` -/
  | jp (nnn : Word)
  /-- 2nnn `CALL nnn` -/
  | call (nnn : Word)
  /-- 3xkk `SE Vx, kk` -/
  | seImm (x : Reg) (kk : Byte)
  /-- 4xkk `SNE Vx, kk` -/
  | sneImm (x : Reg) (kk : Byte)
  /-- 5xy0 `SE Vx, Vy` -/
  | seReg (x y : Reg)
  /-- 6xkk `LD Vx, kk` -/
  | ldImm (x : Reg) (kk : Byte)
  /-- 7xkk `ADD Vx, kk` -/
  | addImm (x : Reg) (kk : Byte)
  /-- 8xy0 `LD Vx, Vy` -/
  | ldReg (x y : Reg)
  /-- 8xy1 `OR Vx, Vy` -/
  | orReg (x y : Reg)
  /-- 8xy2 `AND Vx, Vy` -/
  | andReg (x y : Reg)
  /-- 8xy3 `XOR Vx, Vy` -/
  | xorReg (x y : Reg)
  /-- 8xy4 `ADD Vx, Vy` -/
  | addReg (x y : Reg)
  /-- 8xy5 `SUB Vx, Vy` -/
  | sub (x y : Reg)
  /-- 8xy6 `SHR Vx`; `y` is decoded and unused (30_encoding.md R89) -/
  | shr (x y : Reg)
  /-- 8xy7 `SUBN Vx, Vy` -/
  | subn (x y : Reg)
  /-- 8xyE `SHL Vx`; `y` is decoded and unused (30_encoding.md R89) -/
  | shl (x y : Reg)
  /-- 9xy0 `SNE Vx, Vy` -/
  | sneReg (x y : Reg)
  /-- Annn `LD I, nnn` -/
  | ldI (nnn : Word)
  /-- Bnnn `JP V0, nnn` -/
  | jpV0 (nnn : Word)
  /-- Cxkk `RND Vx, kk` -/
  | rnd (x : Reg) (kk : Byte)
  /-- Dxyn `DRW Vx, Vy, n` -/
  | drw (x y : Reg) (n : Nat)
  /-- Ex9E `SKP Vx` -/
  | skp (x : Reg)
  /-- ExA1 `SKNP Vx` -/
  | sknp (x : Reg)
  /-- Fx07 `LD Vx, DT` -/
  | ldFromDT (x : Reg)
  /-- Fx0A `LD Vx, K` -/
  | ldKey (x : Reg)
  /-- Fx15 `LD DT, Vx` -/
  | ldDT (x : Reg)
  /-- Fx18 `LD ST, Vx` -/
  | ldST (x : Reg)
  /-- Fx1E `ADD I, Vx` -/
  | addI (x : Reg)
  /-- Fx29 `LD F, Vx` -/
  | ldF (x : Reg)
  /-- Fx33 `LD B, Vx` -/
  | ldB (x : Reg)
  /-- Fx55 `LD [I], Vx` -/
  | storeRegs (x : Reg)
  /-- Fx65 `LD Vx, [I]` -/
  | loadRegs (x : Reg)
  deriving DecidableEq, Repr

end Sys2Proof
end

