-- ==== Sys2Proof/Machine/State.lean ====
section
/-! DEFINITION. The state of the engine as plain data (10_state.md), its reset value (70_reset_and_hazards.md R261), and the
reasons a step of the interface can stop. -/

namespace Sys2Proof.Machine

/-- The 4096-byte memory, the only address space (20_memory.md R50), as the list of the bytes that differ from what an
unlisted address reads as (`Memory.unlisted`: the reset contents), in rising order of address. `Memory.wf` states the form. -/
abbrev Memory := List Host.Cell

/-- The framebuffer: 32 rows of 64 pixels, `fb[y][x]`, true when on (10_state.md R32). -/
abbrev Framebuffer := Vector (Vector Bool 64) 32

/-- The keypad: 16 key states, true when pressed (10_state.md R33). -/
abbrev Keypad := Vector Bool 16

/-- The four run-time faults (60_exceptions.md R220). -/
inductive FaultKind where
  /-- the fetched word is no instruction (R224) -/
  | decodeGap
  /-- 2nnn with 16 frames in use (R226) -/
  | stackOverflow
  /-- 00EE with an empty stack (R227) -/
  | stackUnderflow
  /-- Ex9E or ExA1 with V[x] above 15 (R228) -/
  | keyIndexRange
  deriving DecidableEq, Repr

/-- The fault record (10_state.md R41): what happened, the `pc` at fetch, and the word fetched there. -/
structure FaultInfo where
  kind : FaultKind
  addr : Word
  opcode : Word
  deriving DecidableEq, Repr

/-- The engine mode (10_state.md R40). -/
inductive Mode where
  /-- ready to fetch the next instruction -/
  | running
  /-- suspended in Fx0A, waiting for a key press whose index goes to `x` -/
  | awaitKey (x : Reg)
  /-- a run-time fault was reported and stepping has halted -/
  | faulted (info : FaultInfo)
  deriving DecidableEq, Repr

/-- Everything the spec gives the machine (10_state.md, section 1), under the spec's names, and one field of the model's
own, `draws`. -/
structure State where
  /-- the 4096-byte memory (20_memory.md R50) -/
  mem : Memory
  /-- the general registers V0..VF; V[15] is the flag register VF (10_state.md R20, R21) -/
  V : Vector Byte 16
  /-- the index register (10_state.md R27) -/
  I : Word
  /-- the program counter: the address of the executing instruction (10_state.md R24) -/
  pc : Word
  /-- the 16 call-stack slots, stale ones included (10_state.md R28, R29) -/
  stack : Vector Word 16
  /-- the stack pointer: the number of occupied slots, 0..16 (10_state.md R29) -/
  sp : Fin 17
  /-- the delay timer (10_state.md R31) -/
  DT : Byte
  /-- the sound timer (10_state.md R31) -/
  ST : Byte
  /-- the framebuffer (10_state.md R32) -/
  fb : Framebuffer
  /-- the keypad, written by the host only (10_state.md R33) -/
  key : Keypad
  /-- the engine mode (10_state.md R40) -/
  mode : Mode
  /-- THE MODEL'S OWN, not the spec's: how many bytes have been drawn from the random source. It picks the free value of
  the next draw, `Config.randomByte draws` (assumption log 2). -/
  draws : Nat
  deriving DecidableEq, Repr

/-- The machine after construction (70_reset_and_hazards.md R261). Memory lists nothing: every byte reads as its reset
contents. `draws` is the model's own: DESIGN CHOICE, no claim rests on the value (assumption log 2). -/
def State.reset : State where
  mem := []
  V := Vector.replicate 16 0
  I := 0
  pc := Config.progBase
  stack := Vector.replicate 16 0
  sp := 0
  DT := 0
  ST := 0
  fb := Vector.replicate 32 (Vector.replicate 64 false)
  key := Vector.replicate 16 false
  mode := .running
  draws := 0

/-- The reasons the interface's `fault` outcome can carry: NONE. A run-time fault of this engine is a change of state
(`mode` becomes `Faulted(info)`, 60_exceptions.md R222), so it is a next state here, and no condition of the spec stops the
machine otherwise (R221). Nothing raises a `Fault`; safe (assumption log 3). -/
inductive Fault where
  deriving DecidableEq, Repr

/-- The reasons a step can be refused. -/
inductive Refusal where
  /-- Raised by an arm of `exec` for an instruction of the opcode table that has no meaning yet; safe (it proves
  nothing). No arm raises it: all 34 instructions have their meaning. -/
  | notModelled (mnemonic : String)
  deriving DecidableEq, Repr

end Sys2Proof.Machine
end

