-- ==== Sys2Proof/Machine/Flags.lean ====
section
/-! DEFINITION. The flag computations. VF is the only flag (10_state.md R43); every flag is 0 or 1 and is computed from the
operands as they were before the instruction's first write (42_alu.md R140). -/

namespace Sys2Proof.Machine

/-- A flag value: 1 when the condition holds, else 0 (42_alu.md R140). -/
def flagOf (condition : Bool) : Byte := if condition then 1 else 0

/-- 8xy4: the unsigned sum exceeds 255 (42_alu.md R147). -/
def carryFlag (vx vy : Byte) : Byte := flagOf (decide (255 < vx.toNat + vy.toNat))

/-- 8xy5 and 8xy7: the minuend is strictly greater than the subtrahend (42_alu.md R148, R150). -/
def greaterFlag (minuend subtrahend : Byte) : Byte := flagOf (decide (subtrahend.toNat < minuend.toNat))

/-- 8xy6: bit 0 before the shift (42_alu.md R149). -/
def lowBitFlag (vx : Byte) : Byte := vx &&& 1

/-- 8xyE: bit 7 before the shift (42_alu.md R151). -/
def highBitFlag (vx : Byte) : Byte := (vx >>> 7) &&& 1

/-- Dxyn: some pixel that was on is turned off (44_display.md R191). -/
def collisionFlag (collision : Bool) : Byte := flagOf collision

end Sys2Proof.Machine
end

