-- ==== Sys2Proof/WellFormed.lean ====
section
/-! DEFINITION. Which instruction terms an encoding exists for. Register indices and byte immediates are bounded by their
types; the checks are that an address immediate fits in its 12 bits and that a sprite height fits in its 4 bits
(30_encoding.md R81, R82). -/

namespace Sys2Proof

/-- `nnn` is a 12-bit field: 0..0xFFF (30_encoding.md R81). -/
def fitsNNN (nnn : Word) : Bool := decide (nnn.toNat < 4096)

/-- `n` is a count from 0 to 15 (30_encoding.md R82). -/
def fitsN (n : Nat) : Bool := decide (n < 16)

/-- The well-formed instruction terms: exactly those the decoder can answer. -/
def Instr.wellFormed (i : Instr) : Bool :=
  match i with
  | .cls => true
  | .ret => true
  | .jp nnn => fitsNNN nnn
  | .call nnn => fitsNNN nnn
  | .seImm _ _ => true
  | .sneImm _ _ => true
  | .seReg _ _ => true
  | .ldImm _ _ => true
  | .addImm _ _ => true
  | .ldReg _ _ => true
  | .orReg _ _ => true
  | .andReg _ _ => true
  | .xorReg _ _ => true
  | .addReg _ _ => true
  | .sub _ _ => true
  | .shr _ _ => true
  | .subn _ _ => true
  | .shl _ _ => true
  | .sneReg _ _ => true
  | .ldI nnn => fitsNNN nnn
  | .jpV0 nnn => fitsNNN nnn
  | .rnd _ _ => true
  | .drw _ _ n => fitsN n
  | .skp _ => true
  | .sknp _ => true
  | .ldFromDT _ => true
  | .ldKey _ => true
  | .ldDT _ => true
  | .ldST _ => true
  | .addI _ => true
  | .ldF _ => true
  | .ldB _ => true
  | .storeRegs _ => true
  | .loadRegs _ => true

end Sys2Proof
end

