-- ==== Sys2Proof/Decode.lean ====
section
/-! DEFINITION. The decoder and, after it, the encoder and the assembler text, with the byte order and the bit fields they
use. Every instruction is one 16-bit word fetched big-endian (30_encoding.md R80, 20_memory.md R55, R56). The decoder is
total: every word is one instruction or a decode gap, rejected by the name of its gap set (30_encoding.md R85, R88). -/

namespace Sys2Proof

/-! ### Bytes and fields -/

/-- The opcode formed from the byte at the lower address and the byte after it (20_memory.md R55, R56). -/
def wordOfBytes (hi lo : Byte) : Word := hi ++ lo

/-- Bits 15..8: the byte at the lower address (20_memory.md R56). -/
def hiByte (w : Word) : Byte := w.extractLsb' 8 8

/-- Bits 7..0: the byte at the higher address (20_memory.md R56). -/
def loByte (w : Word) : Byte := w.extractLsb' 0 8

/-- `op = w[15:12]`, the family (30_encoding.md R81). -/
def fieldOp (w : Word) : Nat := (w.extractLsb' 12 4).toNat

/-- `x = w[11:8]`, a register index (30_encoding.md R81). -/
def fieldX (w : Word) : Reg := ⟨(w.extractLsb' 8 4).toNat, (w.extractLsb' 8 4).isLt⟩

/-- `y = w[7:4]`, a register index (30_encoding.md R81). -/
def fieldY (w : Word) : Reg := ⟨(w.extractLsb' 4 4).toNat, (w.extractLsb' 4 4).isLt⟩

/-- `n = w[3:0]`, a count or a sub-operation (30_encoding.md R81). -/
def fieldN (w : Word) : Nat := (w.extractLsb' 0 4).toNat

/-- `kk = w[7:0]`, a byte immediate or a sub-operation (30_encoding.md R81). -/
def fieldKK (w : Word) : Byte := w.extractLsb' 0 8

/-- `nnn = w[11:0]`, zero-extended to 16 bits (30_encoding.md R81, R82). -/
def fieldNNN (w : Word) : Word := (w.extractLsb' 0 12).setWidth 16

/-! ### Decoding -/

/-- The gap sets of 30_encoding.md R88: why a word is not an instruction. -/
inductive Gap where
  /-- 0x0000..0x0FFF except 0x00E0 and 0x00EE -/
  | family0
  /-- 0x5xyN with N ≠ 0 -/
  | family5
  /-- 0x8xyN with N in 8, 9, A, B, C, D, F -/
  | family8
  /-- 0x9xyN with N ≠ 0 -/
  | family9
  /-- 0xExKK with KK not 9E or A1 -/
  | familyE
  /-- 0xFxKK with KK none of the nine of family F -/
  | familyF
  deriving DecidableEq, Repr

/-- Family 0: the whole word is fixed in both rows (30_encoding.md R84). -/
def decodeFamily0 (w : Word) : Except Gap Instr :=
  if w = 0x00E0 then .ok .cls
  else if w = 0x00EE then .ok .ret
  else .error .family0

/-- Family 8: the low nibble selects the operation (30_encoding.md R84). -/
def decodeFamily8 (w : Word) : Except Gap Instr :=
  match fieldN w with
  | 0x0 => .ok (.ldReg (fieldX w) (fieldY w))
  | 0x1 => .ok (.orReg (fieldX w) (fieldY w))
  | 0x2 => .ok (.andReg (fieldX w) (fieldY w))
  | 0x3 => .ok (.xorReg (fieldX w) (fieldY w))
  | 0x4 => .ok (.addReg (fieldX w) (fieldY w))
  | 0x5 => .ok (.sub (fieldX w) (fieldY w))
  | 0x6 => .ok (.shr (fieldX w) (fieldY w))
  | 0x7 => .ok (.subn (fieldX w) (fieldY w))
  | 0xE => .ok (.shl (fieldX w) (fieldY w))
  | _ => .error .family8

/-- Family E: the low byte selects the operation (30_encoding.md R84). -/
def decodeFamilyE (w : Word) : Except Gap Instr :=
  match (fieldKK w).toNat with
  | 0x9E => .ok (.skp (fieldX w))
  | 0xA1 => .ok (.sknp (fieldX w))
  | _ => .error .familyE

/-- Family F: the low byte selects the operation (30_encoding.md R84). -/
def decodeFamilyF (w : Word) : Except Gap Instr :=
  match (fieldKK w).toNat with
  | 0x07 => .ok (.ldFromDT (fieldX w))
  | 0x0A => .ok (.ldKey (fieldX w))
  | 0x15 => .ok (.ldDT (fieldX w))
  | 0x18 => .ok (.ldST (fieldX w))
  | 0x1E => .ok (.addI (fieldX w))
  | 0x29 => .ok (.ldF (fieldX w))
  | 0x33 => .ok (.ldB (fieldX w))
  | 0x55 => .ok (.storeRegs (fieldX w))
  | 0x65 => .ok (.loadRegs (fieldX w))
  | _ => .error .familyF

/-- `decode(w)`: the instruction whose row `w` matches, every fixed digit checked, or the gap set `w` lies in
(30_encoding.md R84, R85, R88; 90_conflicts.md C1). It reads only `w`. The family is 4 bits, so the last arm is family F. -/
def decode (w : Word) : Except Gap Instr :=
  match fieldOp w with
  | 0x0 => decodeFamily0 w
  | 0x1 => .ok (.jp (fieldNNN w))
  | 0x2 => .ok (.call (fieldNNN w))
  | 0x3 => .ok (.seImm (fieldX w) (fieldKK w))
  | 0x4 => .ok (.sneImm (fieldX w) (fieldKK w))
  | 0x5 => if fieldN w = 0 then .ok (.seReg (fieldX w) (fieldY w)) else .error .family5
  | 0x6 => .ok (.ldImm (fieldX w) (fieldKK w))
  | 0x7 => .ok (.addImm (fieldX w) (fieldKK w))
  | 0x8 => decodeFamily8 w
  | 0x9 => if fieldN w = 0 then .ok (.sneReg (fieldX w) (fieldY w)) else .error .family9
  | 0xA => .ok (.ldI (fieldNNN w))
  | 0xB => .ok (.jpV0 (fieldNNN w))
  | 0xC => .ok (.rnd (fieldX w) (fieldKK w))
  | 0xD => .ok (.drw (fieldX w) (fieldY w) (fieldN w))
  | 0xE => decodeFamilyE w
  | _ => decodeFamilyF w

/-- Why a byte sequence does not begin with an instruction. -/
inductive DecodeError where
  /-- fewer than the two bytes of an instruction (00_scope.md R5, INSN_BYTES) -/
  | truncated
  /-- the word is a decode gap (30_encoding.md R88) -/
  | gap (g : Gap)
  deriving DecidableEq, Repr

/-- Decode the instruction a byte sequence begins with, and the bytes after it. -/
def decodeBytes (bs : List Byte) : Except DecodeError (Instr × List Byte) :=
  match bs with
  | hi :: lo :: rest =>
    match decode (wordOfBytes hi lo) with
    | .ok i => .ok (i, rest)
    | .error g => .error (.gap g)
  | _ => .error .truncated

/-! ### Encoding -/

/-- A word laid out as `op x y n` (30_encoding.md R81). -/
def packXYN (op : BitVec 4) (x y : Reg) (n : BitVec 4) : Word :=
  op ++ BitVec.ofNat 4 x.val ++ BitVec.ofNat 4 y.val ++ n

/-- A word laid out as `op x kk` (30_encoding.md R81). -/
def packXKK (op : BitVec 4) (x : Reg) (kk : Byte) : Word :=
  op ++ BitVec.ofNat 4 x.val ++ kk

/-- A word laid out as `op nnn` (30_encoding.md R81). -/
def packNNN (op : BitVec 4) (nnn : Word) : Word := op ++ nnn.setWidth 12

/-- The word of an instruction, from its row of the opcode map (30_encoding.md R86). -/
def encode (i : Instr) : Word :=
  match i with
  | .cls => 0x00E0
  | .ret => 0x00EE
  | .jp nnn => packNNN 0x1 nnn
  | .call nnn => packNNN 0x2 nnn
  | .seImm x kk => packXKK 0x3 x kk
  | .sneImm x kk => packXKK 0x4 x kk
  | .seReg x y => packXYN 0x5 x y 0x0
  | .ldImm x kk => packXKK 0x6 x kk
  | .addImm x kk => packXKK 0x7 x kk
  | .ldReg x y => packXYN 0x8 x y 0x0
  | .orReg x y => packXYN 0x8 x y 0x1
  | .andReg x y => packXYN 0x8 x y 0x2
  | .xorReg x y => packXYN 0x8 x y 0x3
  | .addReg x y => packXYN 0x8 x y 0x4
  | .sub x y => packXYN 0x8 x y 0x5
  | .shr x y => packXYN 0x8 x y 0x6
  | .subn x y => packXYN 0x8 x y 0x7
  | .shl x y => packXYN 0x8 x y 0xE
  | .sneReg x y => packXYN 0x9 x y 0x0
  | .ldI nnn => packNNN 0xA nnn
  | .jpV0 nnn => packNNN 0xB nnn
  | .rnd x kk => packXKK 0xC x kk
  | .drw x y n => packXYN 0xD x y (BitVec.ofNat 4 n)
  | .skp x => packXKK 0xE x 0x9E
  | .sknp x => packXKK 0xE x 0xA1
  | .ldFromDT x => packXKK 0xF x 0x07
  | .ldKey x => packXKK 0xF x 0x0A
  | .ldDT x => packXKK 0xF x 0x15
  | .ldST x => packXKK 0xF x 0x18
  | .addI x => packXKK 0xF x 0x1E
  | .ldF x => packXKK 0xF x 0x29
  | .ldB x => packXKK 0xF x 0x33
  | .storeRegs x => packXKK 0xF x 0x55
  | .loadRegs x => packXKK 0xF x 0x65

/-- The bytes of an instruction in memory order (20_memory.md R56). -/
def encodeBytes (i : Instr) : List Byte := [hiByte (encode i), loByte (encode i)]

/-! ### Assembler syntax

The conventional text of an instruction, a name only: the word is normative (30_encoding.md R90, 92_eei_decisions.md D23). -/

/-- A hexadecimal digit. -/
def hexDigit (d : Nat) : String :=
  String.singleton (if d < 10 then Char.ofNat (48 + d) else Char.ofNat (55 + d))

/-- `V0` to `VF`. -/
def regText (r : Reg) : String := "V" ++ hexDigit r.val

/-- A byte as `0x..`. -/
def byteText (b : Byte) : String := "0x" ++ hexDigit (b.toNat / 16) ++ hexDigit (b.toNat % 16)

/-- A 12-bit address as `0x...`. -/
def addrText (a : Word) : String :=
  "0x" ++ hexDigit (a.toNat / 256 % 16) ++ hexDigit (a.toNat / 16 % 16) ++ hexDigit (a.toNat % 16)

/-- The instruction written in the mnemonics of the opcode map (30_encoding.md R86, R90). -/
def Instr.text (i : Instr) : String :=
  match i with
  | .cls => "CLS"
  | .ret => "RET"
  | .jp nnn => "JP " ++ addrText nnn
  | .call nnn => "CALL " ++ addrText nnn
  | .seImm x kk => "SE " ++ regText x ++ ", " ++ byteText kk
  | .sneImm x kk => "SNE " ++ regText x ++ ", " ++ byteText kk
  | .seReg x y => "SE " ++ regText x ++ ", " ++ regText y
  | .ldImm x kk => "LD " ++ regText x ++ ", " ++ byteText kk
  | .addImm x kk => "ADD " ++ regText x ++ ", " ++ byteText kk
  | .ldReg x y => "LD " ++ regText x ++ ", " ++ regText y
  | .orReg x y => "OR " ++ regText x ++ ", " ++ regText y
  | .andReg x y => "AND " ++ regText x ++ ", " ++ regText y
  | .xorReg x y => "XOR " ++ regText x ++ ", " ++ regText y
  | .addReg x y => "ADD " ++ regText x ++ ", " ++ regText y
  | .sub x y => "SUB " ++ regText x ++ ", " ++ regText y
  | .shr x y => "SHR " ++ regText x ++ ", " ++ regText y
  | .subn x y => "SUBN " ++ regText x ++ ", " ++ regText y
  | .shl x y => "SHL " ++ regText x ++ ", " ++ regText y
  | .sneReg x y => "SNE " ++ regText x ++ ", " ++ regText y
  | .ldI nnn => "LD I, " ++ addrText nnn
  | .jpV0 nnn => "JP V0, " ++ addrText nnn
  | .rnd x kk => "RND " ++ regText x ++ ", " ++ byteText kk
  | .drw x y n => "DRW " ++ regText x ++ ", " ++ regText y ++ ", 0x" ++ hexDigit n
  | .skp x => "SKP " ++ regText x
  | .sknp x => "SKNP " ++ regText x
  | .ldFromDT x => "LD " ++ regText x ++ ", DT"
  | .ldKey x => "LD " ++ regText x ++ ", K"
  | .ldDT x => "LD DT, " ++ regText x
  | .ldST x => "LD ST, " ++ regText x
  | .addI x => "ADD I, " ++ regText x
  | .ldF x => "LD F, " ++ regText x
  | .ldB x => "LD B, " ++ regText x
  | .storeRegs x => "LD [I], " ++ regText x
  | .loadRegs x => "LD " ++ regText x ++ ", [I]"

/-! ### The opcode map as data -/

/-- One row of the opcode map: its pattern, and the match and mask that select it (30_encoding.md R86). -/
structure OpcodeRow where
  pattern : String
  value : Word
  mask : Word
  deriving DecidableEq, Repr

/-- `(w & mask) = match` (30_encoding.md R85). -/
def OpcodeRow.matchesWord (r : OpcodeRow) (w : Word) : Bool := decide (w &&& r.mask = r.value)

/-- The row of the opcode map an instruction stands for (30_encoding.md R86). -/
def Instr.row (i : Instr) : OpcodeRow :=
  match i with
  | .cls => ⟨"00E0", 0x00E0, 0xFFFF⟩
  | .ret => ⟨"00EE", 0x00EE, 0xFFFF⟩
  | .jp _ => ⟨"1nnn", 0x1000, 0xF000⟩
  | .call _ => ⟨"2nnn", 0x2000, 0xF000⟩
  | .seImm _ _ => ⟨"3xkk", 0x3000, 0xF000⟩
  | .sneImm _ _ => ⟨"4xkk", 0x4000, 0xF000⟩
  | .seReg _ _ => ⟨"5xy0", 0x5000, 0xF00F⟩
  | .ldImm _ _ => ⟨"6xkk", 0x6000, 0xF000⟩
  | .addImm _ _ => ⟨"7xkk", 0x7000, 0xF000⟩
  | .ldReg _ _ => ⟨"8xy0", 0x8000, 0xF00F⟩
  | .orReg _ _ => ⟨"8xy1", 0x8001, 0xF00F⟩
  | .andReg _ _ => ⟨"8xy2", 0x8002, 0xF00F⟩
  | .xorReg _ _ => ⟨"8xy3", 0x8003, 0xF00F⟩
  | .addReg _ _ => ⟨"8xy4", 0x8004, 0xF00F⟩
  | .sub _ _ => ⟨"8xy5", 0x8005, 0xF00F⟩
  | .shr _ _ => ⟨"8xy6", 0x8006, 0xF00F⟩
  | .subn _ _ => ⟨"8xy7", 0x8007, 0xF00F⟩
  | .shl _ _ => ⟨"8xyE", 0x800E, 0xF00F⟩
  | .sneReg _ _ => ⟨"9xy0", 0x9000, 0xF00F⟩
  | .ldI _ => ⟨"Annn", 0xA000, 0xF000⟩
  | .jpV0 _ => ⟨"Bnnn", 0xB000, 0xF000⟩
  | .rnd _ _ => ⟨"Cxkk", 0xC000, 0xF000⟩
  | .drw _ _ _ => ⟨"Dxyn", 0xD000, 0xF000⟩
  | .skp _ => ⟨"Ex9E", 0xE09E, 0xF0FF⟩
  | .sknp _ => ⟨"ExA1", 0xE0A1, 0xF0FF⟩
  | .ldFromDT _ => ⟨"Fx07", 0xF007, 0xF0FF⟩
  | .ldKey _ => ⟨"Fx0A", 0xF00A, 0xF0FF⟩
  | .ldDT _ => ⟨"Fx15", 0xF015, 0xF0FF⟩
  | .ldST _ => ⟨"Fx18", 0xF018, 0xF0FF⟩
  | .addI _ => ⟨"Fx1E", 0xF01E, 0xF0FF⟩
  | .ldF _ => ⟨"Fx29", 0xF029, 0xF0FF⟩
  | .ldB _ => ⟨"Fx33", 0xF033, 0xF0FF⟩
  | .storeRegs _ => ⟨"Fx55", 0xF055, 0xF0FF⟩
  | .loadRegs _ => ⟨"Fx65", 0xF065, 0xF0FF⟩

/-- The 34 rows of the opcode map, in the table's order (30_encoding.md R86). -/
def opcodeMap : List OpcodeRow :=
  [Instr.row .cls, Instr.row .ret, Instr.row (.jp 0), Instr.row (.call 0), Instr.row (.seImm 0 0),
    Instr.row (.sneImm 0 0), Instr.row (.seReg 0 0), Instr.row (.ldImm 0 0), Instr.row (.addImm 0 0)] ++
  [Instr.row (.ldReg 0 0), Instr.row (.orReg 0 0), Instr.row (.andReg 0 0), Instr.row (.xorReg 0 0),
    Instr.row (.addReg 0 0), Instr.row (.sub 0 0), Instr.row (.shr 0 0), Instr.row (.subn 0 0),
    Instr.row (.shl 0 0), Instr.row (.sneReg 0 0)] ++
  [Instr.row (.ldI 0), Instr.row (.jpV0 0), Instr.row (.rnd 0 0), Instr.row (.drw 0 0 0), Instr.row (.skp 0),
    Instr.row (.sknp 0)] ++
  [Instr.row (.ldFromDT 0), Instr.row (.ldKey 0), Instr.row (.ldDT 0), Instr.row (.ldST 0), Instr.row (.addI 0),
    Instr.row (.ldF 0), Instr.row (.ldB 0), Instr.row (.storeRegs 0), Instr.row (.loadRegs 0)]

/-! ### The opcode table's numbering -/

/-- The word whose bits are `w`, numbered as spec/opcode_table.json numbers them, with the bits from `nbits` up zero. An
instruction is one 16-bit word, so bits 15..0 of `w` are the word itself. -/
def tableWord (nbits w : Nat) : Word := BitVec.ofNat 16 (w % 2 ^ nbits)

/-- What the decoder reads from the instruction whose bits are `w`: its word laid out big-endian as two bytes. -/
def decodeTableWord (nbits w : Nat) : Option Instr :=
  match decodeBytes [hiByte (tableWord nbits w), loByte (tableWord nbits w)] with
  | .ok (i, _) => some i
  | .error _ => none

end Sys2Proof
end

