-- ==== Sys2Proof/Machine/Ops.lean ====
section
/-! DEFINITION. The named operations over memory, registers, the call stack, the keypad and the mode: every read and write
of the state goes through them, raising a fault included. -/

namespace Sys2Proof.Machine

/-! ### Memory -/

/-- `a & 0x0FFF`: an address reduced to 12 bits (20_memory.md R51). -/
def maskAddr (a : Nat) : Nat := a % Config.memSize

/-- What an address nothing has written reads as, the reset contents: the parameter FONT at 0x050..0x09F, zero elsewhere
(70_reset_and_hazards.md R261, 20_memory.md R61, R63). -/
def Memory.unlisted (a : Nat) : Byte :=
  if h : 0x050 ≤ a ∧ a < 0x0A0 then Config.font[a - 0x050]'(by omega) else 0

/-- The byte at address `a`, already masked. -/
def Memory.lookup (m : Memory) (a : Nat) : Byte :=
  match m with
  | [] => Memory.unlisted a
  | c :: rest => if c.1 = a then c.2 else Memory.lookup rest a

/-- The memory with the byte at address `a`, already masked, set to `b`. It keeps the canonical form: the reset contents
of an address are not listed. -/
def Memory.insert (m : Memory) (a : Nat) (b : Byte) : Memory :=
  match m with
  | [] => if b = Memory.unlisted a then [] else [(a, b)]
  | c :: rest =>
    if c.1 = a then (if b = Memory.unlisted a then rest else (a, b) :: rest)
    else if a < c.1 then (if b = Memory.unlisted a then c :: rest else (a, b) :: c :: rest)
    else c :: Memory.insert rest a b

/-- The canonical form: addresses strictly rising, each in the address space, and no entry equal to what its address reads
as when unlisted. -/
abbrev Memory.wf (m : Memory) : Prop :=
  m.Pairwise (fun c d => c.1 < d.1) ∧ ∀ c ∈ m, c.1 < Config.memSize ∧ c.2 ≠ Memory.unlisted c.1

/-- `MemRead(a, 1)` (20_memory.md R52). -/
def Memory.read (m : Memory) (a : Nat) : Byte := Memory.lookup m (maskAddr a)

/-- `MemWrite(a, 1, v)` (20_memory.md R53). -/
def Memory.write (m : Memory) (a : Nat) (b : Byte) : Memory := Memory.insert m (maskAddr a) b

/-- Write bytes to `base`, `base + 1`, ... in order, each at its own masked address (20_memory.md R54). -/
def Memory.writeBytes (m : Memory) (base : Nat) (bs : List Byte) : Memory :=
  match bs with
  | [] => m
  | b :: rest => Memory.writeBytes (Memory.write m base b) (base + 1) rest

/-- Read `n` bytes from `base`, `base + 1`, ... in order, each at its own masked address (20_memory.md R54). -/
def Memory.readBytes (m : Memory) (base n : Nat) : List Byte :=
  match n with
  | 0 => []
  | k + 1 => Memory.read m base :: Memory.readBytes m (base + 1) k

/-- The byte of memory at `a & 0x0FFF` (20_memory.md R52). -/
def State.memRead (s : State) (a : Nat) : Byte := Memory.read s.mem a

/-- The `n` bytes from address `base` on (20_memory.md R54). -/
def State.memReadBytes (s : State) (base n : Nat) : List Byte := Memory.readBytes s.mem base n

/-- Store bytes from address `base` on (20_memory.md R53, R54). -/
def State.memWriteBytes (s : State) (base : Nat) (bs : List Byte) : State :=
  { s with mem := Memory.writeBytes s.mem base bs }

/-- The word at `pc`, big-endian, each byte at its own masked address (20_memory.md R55). -/
def State.fetchWord (s : State) : Word :=
  wordOfBytes (s.memRead s.pc.toNat) (s.memRead (s.pc.toNat + 1))

/-! ### Registers and the program counter -/

/-- The flag register VF, register 15 (10_state.md R21). -/
def VF : Reg := 15

/-- `V[r]` (00_scope.md R9). -/
def State.readV (s : State) (r : Reg) : Byte := s.V[r.val]

/-- `V[r] <- v` (00_scope.md R9). -/
def State.writeV (s : State) (r : Reg) (v : Byte) : State := { s with V := s.V.set r.val v }

/-- `V[0], V[1], ..., V[x]` (43_index_memory.md R175). -/
def State.readVUpTo (s : State) (x : Reg) : List Byte := s.V.toList.take (x.val + 1)

/-- `V[k] <- bytes[k]` for every register there is a byte for (43_index_memory.md R176). -/
def State.writeVFrom (s : State) (k : Nat) (bytes : List Byte) : State :=
  match bytes with
  | [] => s
  | b :: rest => State.writeVFrom { s with V := s.V.setIfInBounds k b } (k + 1) rest

/-- Write a flag to VF and then a result to `V[x]`: with x = 15 the result stays (42_alu.md R140, 92_eei_decisions.md D9). -/
def State.writeFlagThenResult (s : State) (x : Reg) (flag result : Byte) : State :=
  (s.writeV VF flag).writeV x result

/-- `I <- v`, 16 bits, not masked (10_state.md R27). -/
def State.writeI (s : State) (v : Word) : State := { s with I := v }

/-- `pc <- target`, 16 bits, not masked (10_state.md R25, 41_control_flow.md R120). -/
def State.setPc (s : State) (target : Word) : State := { s with pc := target }

/-- `advance(k)`: `pc <- (pc + k) mod 2^16` (40_engine_cycle.md R106). -/
def State.advance (s : State) (k : Word) : State := { s with pc := s.pc + k }

/-- The skip class: advance by 4 when the condition holds, by 2 otherwise (40_engine_cycle.md R103, R105). -/
def State.skipIf (s : State) (condition : Bool) : State := s.advance (if condition then 4 else 2)

/-! ### The call stack -/

/-- Push a return address: none when all 16 slots are occupied (10_state.md R29, R30). -/
def State.push (s : State) (ret : Word) : Option State :=
  if h : s.sp.val < 16 then
    some { s with stack := s.stack.set s.sp.val ret, sp := ⟨s.sp.val + 1, by omega⟩ }
  else none

/-- Pop a return address: none when the stack is empty. The slot keeps its value (10_state.md R29, R30). -/
def State.pop (s : State) : Option (Word × State) :=
  if h : 0 < s.sp.val then
    some (s.stack[s.sp.val - 1]'(by omega), { s with sp := ⟨s.sp.val - 1, by omega⟩ })
  else none

/-! ### The keypad and the random source -/

/-- The least pressed key, if any (45_keys_timers.md R203, 92_eei_decisions.md D10). -/
def leastPressed (key : Keypad) : Option Reg := (List.finRange 16).find? (fun k => key[k.val])

/-- `random_byte()`: the next byte of the random source and the state with that draw taken (42_alu.md R152). -/
def State.drawByte (s : State) : Byte × State :=
  (Config.randomByte s.draws, { s with draws := s.draws + 1 })

/-! ### Taking a fault, and the way back

The engine has no trap entry and no trap return: no handler, no vector, no saved registers (60_exceptions.md R231, R232).
Raising a fault records it in the mode and changes nothing else; only `reset()` (`Machine/HostOps.lean`) leaves it. -/

/-- `raise F(addr = pc, opcode = w)`: only `mode` changes (60_exceptions.md R222). -/
def State.raise (s : State) (kind : FaultKind) (opcode : Word) : State :=
  { s with mode := .faulted { kind := kind, addr := s.pc, opcode := opcode } }

/-- The numeric code of a fault kind (60_exceptions.md R220, 92_eei_decisions.md D8). -/
def FaultKind.code (k : FaultKind) : Nat :=
  match k with
  | .decodeGap => 1
  | .stackOverflow => 2
  | .stackUnderflow => 3
  | .keyIndexRange => 4

end Sys2Proof.Machine
end

