-- ==== Sys2Proof/Machine/Operands.lean ====
section
/-! DEFINITION. The operand forms of the instruction set: the one data addressing mode, the glyph address, the indexed jump
target, the decimal digits, the key index and the sprite coordinates. -/

namespace Sys2Proof.Machine

/-- The address of byte `k` of an access from `I`, formed exactly; the access masks it (43_index_memory.md R170,
20_memory.md R54). -/
def State.indexAddr (s : State) (k : Nat) : Nat := s.I.toNat + k

/-- The masked address of byte `k` of an access from `I`: `(I + k) & 0x0FFF` (43_index_memory.md R170). -/
def State.effAddr (s : State) (k : Nat) : Nat := maskAddr (s.indexAddr k)

/-- Fx29: `0x050 + 5 * Vx`, with no mask of Vx (43_index_memory.md R173, 93_implementation_defined.md U6). -/
def glyphAddr (vx : Byte) : Word := Config.fontBase + Config.glyphBytes * vx.setWidth 16

/-- Bnnn: `(V0 + nnn) mod 2^16` (41_control_flow.md R128). -/
def indexedTarget (v0 : Byte) (nnn : Word) : Word := v0.setWidth 16 + nnn

/-- Fx1E: `(I + Vx) mod 2^16` (43_index_memory.md R172). -/
def indexPlus (index : Word) (vx : Byte) : Word := index + vx.setWidth 16

/-- Fx33: the hundreds, tens and ones of a byte (43_index_memory.md R174). -/
def bcdDigits (vx : Byte) : List Byte :=
  [BitVec.ofNat 8 (vx.toNat / 100), BitVec.ofNat 8 (vx.toNat / 10 % 10), BitVec.ofNat 8 (vx.toNat % 10)]

/-- Ex9E, ExA1: the key index a register value names, none above 15 (45_keys_timers.md R200, R201). -/
def keyIndex (vx : Byte) : Option Reg := if h : vx.toNat < 16 then some ⟨vx.toNat, h⟩ else none

/-- A key index as the byte Fx0A writes (45_keys_timers.md R203). -/
def keyByte (k : Reg) : Byte := BitVec.ofNat 8 k.val

/-- Dxyn: `x0 = Vx mod 64` (44_display.md R191). -/
def spriteColumn (vx : Byte) : Nat := vx.toNat % 64

/-- Dxyn: `y0 = Vy mod 64`, the source's literal; each row is then wrapped mod 32 (44_display.md R191, 90_conflicts.md C3). -/
def spriteRow (vy : Byte) : Nat := vy.toNat % 64

end Sys2Proof.Machine
end

