-- ==== Sys2Proof/Machine/Alu.lean ====
section
/-! DEFINITION. Register loads and the ALU (42_alu.md). Every instruction here is sequential: its last effect is
`advance(2)`. -/

namespace Sys2Proof.Machine

/-- Write a result to `V[x]` and advance: the common end of the instructions that set no flag (42_alu.md R140). -/
def State.finishV (s : State) (x : Reg) (result : Byte) : State := (s.writeV x result).advance 2

/-- Write a flag to VF, a result to `V[x]`, and advance (42_alu.md R140). -/
def State.finishVFlag (s : State) (x : Reg) (flag result : Byte) : State :=
  (s.writeFlagThenResult x flag result).advance 2

/-- 6xkk `LD Vx, kk` (R141). -/
def execLdImm (x : Reg) (kk : Byte) (s : State) : Host.Outcome State Fault Refusal :=
  .next (s.finishV x kk)

/-- 7xkk `ADD Vx, kk`: modulo 256, VF untouched (R142). -/
def execAddImm (x : Reg) (kk : Byte) (s : State) : Host.Outcome State Fault Refusal :=
  .next (s.finishV x (s.readV x + kk))

/-- 8xy0 `LD Vx, Vy` (R143). -/
def execLdReg (x y : Reg) (s : State) : Host.Outcome State Fault Refusal :=
  .next (s.finishV x (s.readV y))

/-- 8xy1 `OR Vx, Vy` (R144). -/
def execOrReg (x y : Reg) (s : State) : Host.Outcome State Fault Refusal :=
  .next (s.finishV x (s.readV x ||| s.readV y))

/-- 8xy2 `AND Vx, Vy` (R145). -/
def execAndReg (x y : Reg) (s : State) : Host.Outcome State Fault Refusal :=
  .next (s.finishV x (s.readV x &&& s.readV y))

/-- 8xy3 `XOR Vx, Vy` (R146). -/
def execXorReg (x y : Reg) (s : State) : Host.Outcome State Fault Refusal :=
  .next (s.finishV x (s.readV x ^^^ s.readV y))

/-- 8xy4 `ADD Vx, Vy`: VF is the carry (R147). -/
def execAddReg (x y : Reg) (s : State) : Host.Outcome State Fault Refusal :=
  .next (s.finishVFlag x (carryFlag (s.readV x) (s.readV y)) (s.readV x + s.readV y))

/-- 8xy5 `SUB Vx, Vy`: VF is 1 exactly when Vx > Vy (R148). -/
def execSub (x y : Reg) (s : State) : Host.Outcome State Fault Refusal :=
  .next (s.finishVFlag x (greaterFlag (s.readV x) (s.readV y)) (s.readV x - s.readV y))

/-- 8xy6 `SHR Vx`: the source is Vx, the `y` field has no effect (R149). -/
def execShr (x _y : Reg) (s : State) : Host.Outcome State Fault Refusal :=
  .next (s.finishVFlag x (lowBitFlag (s.readV x)) (s.readV x >>> 1))

/-- 8xy7 `SUBN Vx, Vy`: VF is 1 exactly when Vy > Vx (R150). -/
def execSubn (x y : Reg) (s : State) : Host.Outcome State Fault Refusal :=
  .next (s.finishVFlag x (greaterFlag (s.readV y) (s.readV x)) (s.readV y - s.readV x))

/-- 8xyE `SHL Vx`: the source is Vx, the `y` field has no effect (R151). -/
def execShl (x _y : Reg) (s : State) : Host.Outcome State Fault Refusal :=
  .next (s.finishVFlag x (highBitFlag (s.readV x)) (s.readV x <<< 1))

/-- Cxkk's effect for a given draw: `V[x] <- kk & r` (R152). -/
def State.rndWith (s : State) (x : Reg) (kk r : Byte) : State := s.finishV x (kk &&& r)

/-- Cxkk `RND Vx, kk`: takes exactly one draw (R152). -/
def execRnd (x : Reg) (kk : Byte) (s : State) : Host.Outcome State Fault Refusal :=
  .next (s.drawByte.2.rndWith x kk s.drawByte.1)

end Sys2Proof.Machine
end

