-- ==== Sys2Proof/Machine/ControlFlow.lean ====
section
/-! DEFINITION. Jumps, call, return and the skips on registers and immediates (41_control_flow.md). A target is stored as
it is: no check of alignment, range or content (R120). The `opcode` of a fault record is the instruction's word, `encode` of
it (assumption log 4). -/

namespace Sys2Proof.Machine

/-- 1nnn `JP nnn` (R122). -/
def execJp (nnn : Word) (s : State) : Host.Outcome State Fault Refusal :=
  .next (s.setPc nnn)

/-- Bnnn `JP V0, nnn`: the offset register is always V0 (R128). -/
def execJpV0 (nnn : Word) (s : State) : Host.Outcome State Fault Refusal :=
  .next (s.setPc (indexedTarget (s.readV 0) nnn))

/-- 2nnn `CALL nnn`: pushes the address of the next instruction, or raises `StackOverflow` (R123). -/
def execCall (nnn : Word) (s : State) : Host.Outcome State Fault Refusal :=
  match s.push (s.pc + 2) with
  | some t => .next (t.setPc nnn)
  | none => .next (s.raise .stackOverflow (encode (.call nnn)))

/-- 00EE `RET`: pops into `pc` as stored, or raises `StackUnderflow` (R121). -/
def execRet (s : State) : Host.Outcome State Fault Refusal :=
  match s.pop with
  | some (target, t) => .next (t.setPc target)
  | none => .next (s.raise .stackUnderflow (encode .ret))

/-- 3xkk `SE Vx, kk` (R124). -/
def execSeImm (x : Reg) (kk : Byte) (s : State) : Host.Outcome State Fault Refusal :=
  .next (s.skipIf (decide (s.readV x = kk)))

/-- 4xkk `SNE Vx, kk` (R125). -/
def execSneImm (x : Reg) (kk : Byte) (s : State) : Host.Outcome State Fault Refusal :=
  .next (s.skipIf (decide (s.readV x ≠ kk)))

/-- 5xy0 `SE Vx, Vy`: compares values, not indices (R126, 90_conflicts.md C2). -/
def execSeReg (x y : Reg) (s : State) : Host.Outcome State Fault Refusal :=
  .next (s.skipIf (decide (s.readV x = s.readV y)))

/-- 9xy0 `SNE Vx, Vy` (R127). -/
def execSneReg (x y : Reg) (s : State) : Host.Outcome State Fault Refusal :=
  .next (s.skipIf (decide (s.readV x ≠ s.readV y)))

end Sys2Proof.Machine
end

