-- ==== Sys2Proof/Machine/Display.lean ====
section
/-! DEFINITION. The framebuffer instructions (44_display.md). -/

namespace Sys2Proof.Machine

/-- The framebuffer with every pixel off (R190). -/
def Framebuffer.clear : Framebuffer := Vector.replicate 32 (Vector.replicate 64 false)

/-- `fb[y mod 32][x mod 64]` (R191, 92_eei_decisions.md D14). -/
def Framebuffer.pixel (fb : Framebuffer) (x y : Nat) : Bool :=
  (fb[y % 32]'(Nat.mod_lt _ (by decide)))[x % 64]'(Nat.mod_lt _ (by decide))

/-- `fb[y mod 32][x mod 64] <- not fb[y mod 32][x mod 64]` (R191). -/
def Framebuffer.flip (fb : Framebuffer) (x y : Nat) : Framebuffer :=
  fb.set (y % 32)
    ((fb[y % 32]'(Nat.mod_lt _ (by decide))).set (x % 64) (!Framebuffer.pixel fb x y) (Nat.mod_lt _ (by decide)))
    (Nat.mod_lt _ (by decide))

/-- A drawing in progress: the framebuffer and whether a pixel that was on has been turned off. -/
abbrev Drawing := Framebuffer × Bool

/-- Toggle one pixel and note a collision (R191). -/
def drawPixel (d : Drawing) (x y : Nat) : Drawing :=
  (Framebuffer.flip d.1 x y, d.2 || Framebuffer.pixel d.1 x y)

/-- One sprite byte from column `x0` of row `y`: bit 7 is the leftmost pixel (R191, 92_eei_decisions.md D12). -/
def drawRow (d : Drawing) (x0 y : Nat) (row : Byte) : Drawing :=
  (List.range 8).foldl (fun acc c => if row.getLsbD (7 - c) then drawPixel acc (x0 + c) y else acc) d

/-- The sprite bytes, one row below the other from row `y0`, every pixel wrapping at the edges (R191). -/
def drawRows (d : Drawing) (x0 y0 : Nat) (rows : List Byte) : Drawing :=
  match rows with
  | [] => d
  | row :: rest => drawRows (drawRow d x0 y0 row) x0 (y0 + 1) rest

/-- The drawing that Dxyn makes of state `s` (R191). -/
def State.drawSprite (s : State) (x y : Reg) (n : Nat) : Drawing :=
  drawRows (s.fb, false) (spriteColumn (s.readV x)) (spriteRow (s.readV y)) (s.memReadBytes (s.indexAddr 0) n)

/-- 00E0 `CLS` (R190). -/
def execCls (s : State) : Host.Outcome State Fault Refusal :=
  .next ({ s with fb := Framebuffer.clear }.advance 2)

/-- Dxyn `DRW Vx, Vy, n`: VF is written on every draw, with the collision flag (R191). -/
def execDrw (x y : Reg) (n : Nat) (s : State) : Host.Outcome State Fault Refusal :=
  .next (({ s with fb := (s.drawSprite x y n).1 }.writeV VF (collisionFlag (s.drawSprite x y n).2)).advance 2)

end Sys2Proof.Machine
end

