-- ==== Sys2Proof/Machine/IndexMemory.lean ====
section
/-! DEFINITION. The index register and the memory transfers (43_index_memory.md). Every instruction here is sequential, and
no memory access changes `I` (R170). -/

namespace Sys2Proof.Machine

/-- Annn `LD I, nnn` (R171). -/
def execLdI (nnn : Word) (s : State) : Host.Outcome State Fault Refusal :=
  .next ((s.writeI nnn).advance 2)

/-- Fx1E `ADD I, Vx`: modulo 2^16, unmasked, VF untouched (R172). -/
def execAddI (x : Reg) (s : State) : Host.Outcome State Fault Refusal :=
  .next ((s.writeI (indexPlus s.I (s.readV x))).advance 2)

/-- Fx29 `LD F, Vx`: the glyph address by its formula (R173). -/
def execLdF (x : Reg) (s : State) : Host.Outcome State Fault Refusal :=
  .next ((s.writeI (glyphAddr (s.readV x))).advance 2)

/-- Fx33 `LD B, Vx`: the three decimal digits to I, I + 1 and I + 2 (R174). -/
def execLdB (x : Reg) (s : State) : Host.Outcome State Fault Refusal :=
  .next ((s.memWriteBytes (s.indexAddr 0) (bcdDigits (s.readV x))).advance 2)

/-- Fx55 `LD [I], Vx`: V0..Vx to I.., all registers read before the first write (R175). -/
def execStoreRegs (x : Reg) (s : State) : Host.Outcome State Fault Refusal :=
  .next ((s.memWriteBytes (s.indexAddr 0) (s.readVUpTo x)).advance 2)

/-- Fx65 `LD Vx, [I]`: V0..Vx from I.., all bytes read before the first write (R176). -/
def execLoadRegs (x : Reg) (s : State) : Host.Outcome State Fault Refusal :=
  .next ((s.writeVFrom 0 (s.memReadBytes (s.indexAddr 0) (x.val + 1))).advance 2)

end Sys2Proof.Machine
end

