-- ==== Sys2Proof/Machine/KeysTimers.lean ====
section
/-! DEFINITION. The keypad and timer instructions (45_keys_timers.md). -/

namespace Sys2Proof.Machine

/-- Ex9E `SKP Vx`, or `KeyIndexRange` when Vx is above 15 (R200). -/
def execSkp (x : Reg) (s : State) : Host.Outcome State Fault Refusal :=
  match keyIndex (s.readV x) with
  | some k => .next (s.skipIf s.key[k.val])
  | none => .next (s.raise .keyIndexRange (encode (.skp x)))

/-- ExA1 `SKNP Vx`, or `KeyIndexRange` when Vx is above 15 (R201). -/
def execSknp (x : Reg) (s : State) : Host.Outcome State Fault Refusal :=
  match keyIndex (s.readV x) with
  | some k => .next (s.skipIf (!s.key[k.val]))
  | none => .next (s.raise .keyIndexRange (encode (.sknp x)))

/-- Fx07 `LD Vx, DT` (R202). -/
def execLdFromDT (x : Reg) (s : State) : Host.Outcome State Fault Refusal :=
  .next ((s.writeV x s.DT).advance 2)

/-- Deliver key `k` to `V[x]` and advance past the Fx0A (R203, R204). -/
def State.completeKey (s : State) (x k : Reg) : State := (s.writeV x (keyByte k)).advance 2

/-- Fx0A `LD Vx, K`: the least pressed key, or wait with `pc` at the Fx0A (R203). -/
def execLdKey (x : Reg) (s : State) : Host.Outcome State Fault Refusal :=
  match leastPressed s.key with
  | some k => .next (s.completeKey x k)
  | none => .next { s with mode := .awaitKey x }

/-- A step in mode `AwaitKey(x)`: the keypad only, no fetch (R204). -/
def State.awaitStep (s : State) (x : Reg) : State :=
  match leastPressed s.key with
  | some k => { s.completeKey x k with mode := .running }
  | none => s

/-- Fx15 `LD DT, Vx` (R205). -/
def execLdDT (x : Reg) (s : State) : Host.Outcome State Fault Refusal :=
  .next ({ s with DT := s.readV x }.advance 2)

/-- Fx18 `LD ST, Vx` (R206). -/
def execLdST (x : Reg) (s : State) : Host.Outcome State Fault Refusal :=
  .next ({ s with ST := s.readV x }.advance 2)

end Sys2Proof.Machine
end

