-- ==== Sys2Proof/Machine/Cycle.lean ====
section
/-! DEFINITION. The step cycle in mode `Running`, and the result a step reports to the host (40_engine_cycle.md). -/

namespace Sys2Proof.Machine

/-- `run_step()`: fetch the word at `pc`, decode it, and execute it, or raise `DecodeGap` (40_engine_cycle.md R101,
60_exceptions.md R224). -/
def State.runStep (s : State) : Host.Outcome State Fault Refusal :=
  match decode s.fetchWord with
  | .ok i => exec i s
  | .error _ => .next (s.raise .decodeGap s.fetchWord)

/-- The four results a step reports to the host (40_engine_cycle.md R100). -/
inductive StepResult where
  /-- an instruction completed -/
  | executed
  /-- Fx0A is waiting for a key -/
  | waiting
  /-- a fault was raised by this step -/
  | fault (info : FaultInfo)
  /-- the engine was already faulted -/
  | halted (info : FaultInfo)
  deriving DecidableEq, Repr

/-- The result of a step, from the modes before and after it (40_engine_cycle.md R100): the mode says which of the four
happened, so `step` needs no result of its own beside the next state. -/
def stepResult (before after : Mode) : StepResult :=
  match before with
  | .faulted info => .halted info
  | _ =>
    match after with
    | .running => .executed
    | .awaitKey _ => .waiting
    | .faulted info => .fault info

/-- The state in which the very next step fetches and runs the word `w`: its two bytes stand at `pc`, big-endian, and the
mode is `Running`, the only mode that fetches (40_engine_cycle.md R100, R101). -/
def State.withWordAtPc (s : State) (w : Word) : State :=
  { s.memWriteBytes s.pc.toNat [hiByte w, loByte w] with mode := .running }

end Sys2Proof.Machine
end

