-- ==== Sys2Proof/Machine/Step.lean ====
section
/-! DEFINITION. One step of the engine (40_engine_cycle.md R100), and the state whose next step runs a given word. -/

namespace Sys2Proof.Machine

/-- `step()`: a faulted engine does nothing, a waiting one checks the keypad, a running one executes one instruction
(40_engine_cycle.md R100, 60_exceptions.md R223). -/
def step (s : State) : Host.Outcome State Fault Refusal :=
  match s.mode with
  | .faulted _ => .next s
  | .awaitKey x => .next (s.awaitStep x)
  | .running => s.runStep

/-- The state whose next step fetches and runs the instruction whose bits are `w` (assumption log 5). -/
def State.withFetchWord (s : State) (nbits w : Nat) : State := s.withWordAtPc (tableWord nbits w)

end Sys2Proof.Machine
end

