-- ==== Sys2Proof/Machine/HostOps.lean ====
section
/-! DEFINITION. The host interface at transaction level (60_exceptions.md, section 4): the operations that change the state
beside `step()`, and the reads. Each is one atomic transaction; their order is the host's free choice (R248). -/

namespace Sys2Proof.Machine

/-- Decrement a nonzero timer by 1, leave a zero timer at 0 (60_exceptions.md R241). -/
def tickTimer (t : Byte) : Byte := if t = 0 then 0 else t - 1

/-- `tick()`: both timers, in every mode (60_exceptions.md R241, R242). -/
def State.tick (s : State) : State := { s with DT := tickTimer s.DT, ST := tickTimer s.ST }

/-- `set_keys(k)`: replace the keypad; it completes no wait itself (60_exceptions.md R243). -/
def State.setKeys (s : State) (k : Keypad) : State := { s with key := k }

/-- Why a load is refused (20_memory.md R66). -/
inductive LoadError where
  /-- the image is longer than 3584 bytes -/
  | sizeExceeded
  deriving DecidableEq, Repr

/-- `load(image)`: copy the image to 0x200 and on, or refuse it and change nothing. No parsing, no other effect, in every
mode (20_memory.md R66, 92_eei_decisions.md D21, D27). -/
def State.load (s : State) (image : List Byte) : Except LoadError State :=
  if Config.progMax < image.length then .error .sizeExceeded
  else .ok (s.memWriteBytes Config.progBase.toNat image)

/-- `reset()`: every component of the spec's state back to its construction value, whatever the mode
(70_reset_and_hazards.md R260). The random source is not reset to an earlier byte: draws go on (assumption log 2). -/
def State.hostReset (s : State) : State := { State.reset with draws := s.draws }

/-- A `reset()` followed by a load and a keypad write: the state the host brings the machine to before its first `step()`
(70_reset_and_hazards.md R262). -/
def State.boot (s : State) (image : List Byte) (k : Keypad) : Except LoadError State :=
  match s.hostReset.load image with
  | .ok t => .ok (t.setKeys k)
  | .error e => .error e

/-- The five operations through which the host changes the state (00_scope.md R7, 60_exceptions.md R247). -/
inductive HostOp where
  | step
  | tick
  | setKeys (k : Keypad)
  | load (image : List Byte)
  | reset
  deriving DecidableEq, Repr

/-- One host operation. A refused load leaves the state as it was (20_memory.md R66). -/
def hostOp (op : HostOp) (s : State) : Host.Outcome State Fault Refusal :=
  match op with
  | .step => step s
  | .tick => .next s.tick
  | .setKeys k => .next (s.setKeys k)
  | .load image =>
    match s.load image with
    | .ok t => .next t
    | .error _ => .next s
  | .reset => .next s.hostReset

/-- A schedule of host operations, each completed before the next begins (60_exceptions.md R248). -/
def hostRun (ops : List HostOp) (s : State) : Host.Outcome State Fault Refusal :=
  match ops with
  | [] => .next s
  | op :: rest =>
    match hostOp op s with
    | .next t => hostRun rest t
    | .fault r => .fault r
    | .refused r => .refused r

/-! ### The reads (60_exceptions.md R244 to R247); every other component is read as its field -/

/-- The framebuffer in its row-major linear order, element `y * 64 + x` (10_state.md R32, 60_exceptions.md R244). -/
def State.readFramebuffer (s : State) : List Bool := s.fb.toList.flatMap (fun row => row.toList)

/-- The sound timer; nonzero means a tone should be sounding (60_exceptions.md R245). -/
def State.readSoundTimer (s : State) : Byte := s.ST

/-- The fault record, if the engine is faulted (60_exceptions.md R246). -/
def State.readFault (s : State) : Option FaultInfo :=
  match s.mode with
  | .faulted info => some info
  | _ => none

/-- The fault code, 0 when there is no fault (60_exceptions.md R220). -/
def State.readFaultCode (s : State) : Nat :=
  match s.readFault with
  | some info => info.kind.code
  | none => 0

/-- The result `step()` reports to the host, with the next state (40_engine_cycle.md R100, 60_exceptions.md R240). -/
def State.stepReported (s : State) : Host.Outcome (StepResult × State) Fault Refusal :=
  match step s with
  | .next t => .next (stepResult s.mode t.mode, t)
  | .fault r => .fault r
  | .refused r => .refused r

end Sys2Proof.Machine
end

