-- ==== Sys2Proof/Safety.lean ====
section
/-! DEFINITION. The terms in which claims about the machine are written: what an instruction may change, what a safe run is,
the end states of a run, and the invariant of the machine. -/

namespace Sys2Proof.Machine

/-! ### Frames -/

/-- The components of the state a frame speaks of. The program counter is stated by itself in each claim. -/
inductive Field where
  | mem
  | V
  | I
  | stack
  | sp
  | DT
  | ST
  | fb
  | key
  | mode
  | draws
  deriving DecidableEq, Repr

/-- A component has the same value in two states; memory has it when every byte reads the same. -/
def Field.same (f : Field) (s t : State) : Prop :=
  match f with
  | .mem => ∀ a : Nat, t.memRead a = s.memRead a
  | .V => ∀ r : Reg, t.readV r = s.readV r
  | .I => t.I = s.I
  | .stack => t.stack = s.stack
  | .sp => t.sp = s.sp
  | .DT => t.DT = s.DT
  | .ST => t.ST = s.ST
  | .fb => t.fb = s.fb
  | .key => t.key = s.key
  | .mode => t.mode = s.mode
  | .draws => t.draws = s.draws

/-- Every component but the listed ones (and `pc`) is unchanged: the frame rule (10_state.md R44). -/
def OnlyChanges (fs : List Field) (s t : State) : Prop := ∀ f : Field, f ∉ fs → f.same s t

/-- The components each instruction may write beside `pc` (10_state.md, the table of section 1, and R44). A fault or a wait
writes the mode. -/
def mayWrite (i : Instr) : List Field :=
  match i with
  | .cls => [.fb]
  | .ret => [.sp, .mode]
  | .jp _ => []
  | .call _ => [.stack, .sp, .mode]
  | .seImm _ _ => []
  | .sneImm _ _ => []
  | .seReg _ _ => []
  | .ldImm _ _ => [.V]
  | .addImm _ _ => [.V]
  | .ldReg _ _ => [.V]
  | .orReg _ _ => [.V]
  | .andReg _ _ => [.V]
  | .xorReg _ _ => [.V]
  | .addReg _ _ => [.V]
  | .sub _ _ => [.V]
  | .shr _ _ => [.V]
  | .subn _ _ => [.V]
  | .shl _ _ => [.V]
  | .sneReg _ _ => []
  | .ldI _ => [.I]
  | .jpV0 _ => []
  | .rnd _ _ => [.V, .draws]
  | .drw _ _ _ => [.fb, .V]
  | .skp _ => [.mode]
  | .sknp _ => [.mode]
  | .ldFromDT _ => [.V]
  | .ldKey _ => [.V, .mode]
  | .ldDT _ => [.DT]
  | .ldST _ => [.ST]
  | .addI _ => [.I]
  | .ldF _ => [.I]
  | .ldB _ => [.mem]
  | .storeRegs _ => [.mem]
  | .loadRegs _ => [.V]

/-- The registers each instruction may write: the "writes" column of 10_state.md R22. -/
def mayWriteReg (i : Instr) (r : Reg) : Bool :=
  match i with
  | .cls => false
  | .ret => false
  | .jp _ => false
  | .call _ => false
  | .seImm _ _ => false
  | .sneImm _ _ => false
  | .seReg _ _ => false
  | .ldImm x _ => r == x
  | .addImm x _ => r == x
  | .ldReg x _ => r == x
  | .orReg x _ => r == x
  | .andReg x _ => r == x
  | .xorReg x _ => r == x
  | .addReg x _ => r == x || r == VF
  | .sub x _ => r == x || r == VF
  | .shr x _ => r == x || r == VF
  | .subn x _ => r == x || r == VF
  | .shl x _ => r == x || r == VF
  | .sneReg _ _ => false
  | .ldI _ => false
  | .jpV0 _ => false
  | .rnd x _ => r == x
  | .drw _ _ _ => r == VF
  | .skp _ => false
  | .sknp _ => false
  | .ldFromDT x => r == x
  | .ldKey x => r == x
  | .ldDT _ => false
  | .ldST _ => false
  | .addI _ => false
  | .ldF _ => false
  | .ldB _ => false
  | .storeRegs _ => false
  | .loadRegs x => decide (r ≤ x)

/-! ### The shapes of an instruction's claim -/

/-- The encoding line of an instruction's rule: every word with these fixed bits decodes to the instruction, with its
operands taken from the word's fields (30_encoding.md R85, R86; 40_engine_cycle.md R102). -/
def DecodesAs (mask value : Word) (instr : Word → Instr) : Prop :=
  ∀ w : Word, w &&& mask = value → decode w = .ok (instr w)

/-- A sequential instruction that wrote the number `value` to `V[x]` and nothing else. -/
def WroteReg (x : Reg) (value : Nat) (s t : State) : Prop :=
  (t.readV x).toNat = value ∧ (∀ r, r ≠ x → t.readV r = s.readV r) ∧ t.pc = s.pc + 2 ∧ OnlyChanges [.V] s t

/-- A sequential instruction that wrote the flag to VF, then the number `value` to `V[x]`, and nothing else: with x = 15
VF ends as the value (92_eei_decisions.md D9). -/
def WroteFlagThenReg (x : Reg) (flag value : Nat) (s t : State) : Prop :=
  (t.readV x).toNat = value ∧ (x ≠ VF → (t.readV VF).toNat = flag) ∧
  (∀ r, r ≠ x → r ≠ VF → t.readV r = s.readV r) ∧ t.pc = s.pc + 2 ∧ OnlyChanges [.V] s t

/-- A step that raised a fault: only the mode has changed, and it holds this record (60_exceptions.md R222). -/
def RaisedFault (kind : FaultKind) (opcode : Word) (s t : State) : Prop :=
  t.mode = .faulted { kind := kind, addr := s.pc, opcode := opcode } ∧ t.pc = s.pc ∧ OnlyChanges [.mode] s t

/-- Every byte of memory outside the `count` bytes from `I` on reads as before, each of those at its own masked address
(20_memory.md R54). -/
def KeepsMemoryOutside (count : Nat) (s t : State) : Prop :=
  ∀ a : Nat, (∀ k, k < count → maskAddr a ≠ s.effAddr k) → t.memRead a = s.memRead a

/-- Pixel (px, py) lies under a set bit of the sprite that `DRW Vx, Vy, n` draws in state `s`, every pixel wrapped at the
edges (44_display.md R191). -/
def UnderSprite (s : State) (x y : Reg) (n px py : Nat) : Prop :=
  ∃ r c : Nat, r < n ∧ c < 8 ∧ (s.memRead (s.indexAddr r)).getLsbD (7 - c) = true ∧
    px = ((s.readV x).toNat % 64 + c) % 64 ∧ py = ((s.readV y).toNat % 64 + r) % 32

/-! ### Safe runs and the ends of a run -/

/-- The engine has not faulted: what a claim that a program completes normally must assert (70_reset_and_hazards.md R280). -/
def State.notFaulted (s : State) : Prop := ∀ info, s.mode ≠ .faulted info

/-- A self-loop: the running engine stands at a jump to itself (70_reset_and_hazards.md R280). -/
def State.selfLoop (s : State) : Prop := s.mode = .running ∧ decode s.fetchWord = .ok (.jp s.pc)

/-- An idle wait: the engine awaits a key and none is pressed (70_reset_and_hazards.md R280). -/
def State.idleWait (s : State) : Prop :=
  (∃ x, s.mode = .awaitKey x) ∧ ∀ k : Reg, s.key[k.val] = false

/-! ### The invariant -/

/-- What a fault record says is so (60_exceptions.md R220, R222): its address is `pc`, and the word and the state are ones
its kind of fault is raised for. -/
def FaultRecordHolds (info : FaultInfo) (s : State) : Prop :=
  info.addr = s.pc ∧
  match info.kind with
  | .decodeGap => ∃ g, decode info.opcode = .error g
  | .stackOverflow => s.sp.val = 16 ∧ ∃ nnn, decode info.opcode = .ok (.call nnn)
  | .stackUnderflow => s.sp.val = 0 ∧ info.opcode = 0x00EE
  | .keyIndexRange =>
    ∃ x, 15 < (s.readV x).toNat ∧ (decode info.opcode = .ok (.skp x) ∨ decode info.opcode = .ok (.sknp x))

/-- The invariant of the machine: memory is in its canonical form, and a faulted engine's record describes the state it
stopped in. -/
def Inv (s : State) : Prop :=
  Memory.wf s.mem ∧ ∀ info, s.mode = .faulted info → FaultRecordHolds info s

end Sys2Proof.Machine
end

