-- ==== Sys2Proof/Certificates/Slice0/Obligations.lean ====
section
/-! DEFINITION. The statements for the provers. A statement that writes memory, or reads back what was written, takes
`Memory.wf s.mem` as a premise: `Obligations.StepKeepsInvariant` and `Obligations.ResetMeetsInvariant` state that every
reached state meets it. Where a clause rests on a decision the spec marks as its own (92_eei_decisions.md), the docstring
names it. -/

open Sys2Proof Sys2Proof.Machine

/-! ### Encoding -/

/-- Decoding the encoding of a well-formed instruction gives it back, as a word and as bytes in memory order
(30_encoding.md R81, R86; 20_memory.md R56). -/
def Obligations.DecodeOfEncodeIsTheInstruction : Prop :=
  ∀ i : Instr, i.wellFormed = true →
    decode (encode i) = .ok i ∧
    ∀ rest : List Byte, decodeBytes (encodeBytes i ++ rest) = .ok (i, rest)

/-- A word that decodes to an instruction is that instruction's encoding: no bit of a word is dropped, and no two words
are one instruction (30_encoding.md R85, R89). -/
def Obligations.EncodeOfDecodeIsTheWord : Prop :=
  ∀ (w : Word) (i : Instr), decode w = .ok i → i.wellFormed = true ∧ encode i = w

/-- R85: a word decodes to the instruction whose row of the opcode map it matches, at most one row matches, and a word that
matches no row is a gap. -/
def Obligations.DecodePicksTheOneMatchingRow : Prop :=
  ∀ w : Word,
    (∀ i, decode w = .ok i → i.row ∈ opcodeMap ∧ i.row.matchesWord w = true) ∧
    (∀ r ∈ opcodeMap, r.matchesWord w = true → ∃ i, decode w = .ok i ∧ i.row = r) ∧
    (∀ r ∈ opcodeMap, ∀ r' ∈ opcodeMap, r.matchesWord w = true → r'.matchesWord w = true → r = r') ∧
    ((∀ r ∈ opcodeMap, r.matchesWord w = false) ↔ ∃ g, decode w = .error g)

/-- The gap sets of 30_encoding.md R88, as numbers (without R88's counts; that a gap raises a fault is D6). -/
def Obligations.DecodeGapsAreTheSixSets : Prop :=
  ∀ w : Word,
    (decode w = .error .family0 ↔ w.toNat ≤ 0x0FFF ∧ w.toNat ≠ 0x00E0 ∧ w.toNat ≠ 0x00EE) ∧
    (decode w = .error .family5 ↔ w.toNat / 4096 = 5 ∧ w.toNat % 16 ≠ 0) ∧
    (decode w = .error .family8 ↔ w.toNat / 4096 = 8 ∧ w.toNat % 16 ∈ [0x8, 0x9, 0xA, 0xB, 0xC, 0xD, 0xF]) ∧
    (decode w = .error .family9 ↔ w.toNat / 4096 = 9 ∧ w.toNat % 16 ≠ 0) ∧
    (decode w = .error .familyE ↔ w.toNat / 4096 = 14 ∧ w.toNat % 256 ∉ [0x9E, 0xA1]) ∧
    (decode w = .error .familyF ↔ w.toNat / 4096 = 15 ∧
      w.toNat % 256 ∉ [0x07, 0x0A, 0x15, 0x18, 0x1E, 0x29, 0x33, 0x55, 0x65])

/-- Words written out from the opcode map, one of each family, and what they stand for (30_encoding.md R86, and the gaps of
95_test_vectors.md section 2.1). -/
def Obligations.WordsWrittenFromTheMapDecode : Prop :=
  decode 0b0000000011100000 = .ok .cls ∧ decode 0b0001101010111100 = .ok (.jp 0xABC) ∧
  decode 0b0101000100100000 = .ok (.seReg 1 2) ∧ decode 0b0111001000000001 = .ok (.addImm 2 1) ∧
  decode 0b1000111111111110 = .ok (.shl 15 15) ∧ decode 0b1101000100101111 = .ok (.drw 1 2 15) ∧
  decode 0b1110010110100001 = .ok (.sknp 5) ∧ decode 0b1111000101100101 = .ok (.loadRegs 1) ∧
  decode 0x0000 = .error .family0 ∧ decode 0x5121 = .error .family5 ∧ decode 0x8008 = .error .family8 ∧
  decode 0x912F = .error .family9 ∧ decode 0xE19F = .error .familyE ∧ decode 0xF00B = .error .familyF

/-! ### The step cycle -/

/-- R101: in mode `Running` a step reads the two bytes at `pc` and `pc + 1`, forms the word with the first byte high, decodes
it, and executes the instruction in the state as it stands, or raises `DecodeGap` with `pc` and the word (that a gap
faults is decision D6). -/
def Obligations.StepRunsTheDecodedInstruction : Prop :=
  ∀ s : State, s.mode = .running →
    s.fetchWord.toNat = (s.memRead s.pc.toNat).toNat * 256 + (s.memRead (s.pc.toNat + 1)).toNat ∧
    (∀ i, decode s.fetchWord = .ok i → step s = exec i s) ∧
    (∀ g, decode s.fetchWord = .error g → ∃ t, step s = .next t ∧ RaisedFault .decodeGap s.fetchWord s t)

/-- Placing a well-formed instruction where the next step fetches makes that step run exactly it (the model's own
`withFetchWord`, assumption log 5; 20_memory.md R55, R70). -/
def Obligations.PlacedInstructionRunsNext : Prop :=
  ∀ (s : State) (i : Instr), Memory.wf s.mem → i.wellFormed = true →
    decodeTableWord 16 (encode i).toNat = some i ∧
    step (s.withFetchWord 16 (encode i).toNat) = exec i (s.withFetchWord 16 (encode i).toNat)

/-- Every state steps: no access, target, operand or mode stops the machine outside the four faults, and those are next
states (60_exceptions.md R221; 70_reset_and_hazards.md R281). -/
def Obligations.EveryStateSteps : Prop :=
  (∀ s : State, ∃ t, step s = .next t) ∧
  (∀ (i : Instr) (s : State), ∃ t, exec i s = .next t) ∧
  (∀ (ops : List HostOp) (s : State), ∃ t, hostRun ops s = .next t)

/-- A running step ends faulted exactly under the four conditions of 60_exceptions.md R220, with `pc` and the fetched word
in the record (decisions D5, D6, D8, D11, D25). -/
def Obligations.StepFaultsExactlyWhen : Prop :=
  ∀ (s t : State) (info : FaultInfo), s.mode = .running → step s = .next t →
    (t.mode = .faulted info ↔
      info.addr = s.pc ∧ info.opcode = s.fetchWord ∧
      match info.kind with
      | .decodeGap => ∃ g, decode s.fetchWord = .error g
      | .stackOverflow => s.sp.val = 16 ∧ ∃ nnn, decode s.fetchWord = .ok (.call nnn)
      | .stackUnderflow => s.sp.val = 0 ∧ decode s.fetchWord = .ok .ret
      | .keyIndexRange =>
        ∃ x, 15 < (s.readV x).toNat ∧
          (decode s.fetchWord = .ok (.skp x) ∨ decode s.fetchWord = .ok (.sknp x)))

/-- Every fault is precise: a step that ends faulted has changed nothing but the mode, and the record names the
instruction's address and word (60_exceptions.md R222; decisions D7 and D25). -/
def Obligations.RaisedFaultIsPrecise : Prop :=
  ∀ (s t : State) (info : FaultInfo), s.mode = .running → step s = .next t → t.mode = .faulted info →
    RaisedFault info.kind s.fetchWord s t

/-- A faulted engine's step changes nothing, and no operation but `reset()` leaves the faulted mode
(60_exceptions.md R223; decision D7). -/
def Obligations.FaultLastsUntilReset : Prop :=
  ∀ (s : State) (info : FaultInfo), s.mode = .faulted info →
    step s = .next s ∧
    (∀ op, op ≠ HostOp.reset → ∃ t, hostOp op s = .next t ∧ t.mode = .faulted info) ∧
    (∃ t, hostOp .reset s = .next t ∧ t.mode = .running)

/-- A step in mode `AwaitKey(x)` reads the keypad only: with no key pressed it changes nothing, else the least pressed key
goes to `V[x]`, the engine runs on, and `pc` moves past the Fx0A (45_keys_timers.md R204; decisions D10 and D28). -/
def Obligations.WaitingStepReadsTheKeypad : Prop :=
  ∀ (s : State) (x : Reg), s.mode = .awaitKey x →
    ((∀ k : Reg, s.key[k.val] = false) → step s = .next s) ∧
    (∀ k : Reg, s.key[k.val] = true → (∀ j : Reg, j < k → s.key[j.val] = false) →
      ∃ t, step s = .next t ∧ (t.readV x).toNat = k.val ∧ (∀ r, r ≠ x → t.readV r = s.readV r) ∧
        t.pc = s.pc + 2 ∧ t.mode = .running ∧ OnlyChanges [.V, .mode] s t)

/-- The three kinds of end state of a run do not change by stepping (70_reset_and_hazards.md R280; decision D24). -/
def Obligations.EndStatesAreFixedBySteps : Prop :=
  ∀ s : State, (s.selfLoop ∨ s.idleWait ∨ ∃ info, s.mode = .faulted info) → step s = .next s

/-- The result a step reports, from the mode it found and the mode it left (40_engine_cycle.md R100; decision D7). -/
def Obligations.StepReportsTheMode : Prop :=
  ∀ (s t : State), step s = .next t → ∃ r, s.stepReported = .next (r, t) ∧
    (∀ info, s.mode = .faulted info → r = .halted info) ∧
    ((∀ info, s.mode ≠ .faulted info) →
      (t.mode = .running → r = .executed) ∧ (∀ x, t.mode = .awaitKey x → r = .waiting) ∧
      (∀ info, t.mode = .faulted info → r = .fault info))

/-! ### Whole-machine rules -/

/-- The frame rule for every instruction: `exec` changes no component but those the instruction may write
(10_state.md R44 and the table of its section 1). -/
def Obligations.InstructionsChangeOnlyTheirComponents : Prop :=
  ∀ (i : Instr) (s t : State), exec i s = .next t → OnlyChanges (mayWrite i) s t

/-- The register frame for every instruction: a register outside the instruction's "writes" column keeps its value
(10_state.md R21, R22; that flag instructions write VF before their result is decision D9). -/
def Obligations.InstructionsWriteOnlyTheirRegisters : Prop :=
  ∀ (i : Instr) (s t : State) (r : Reg), exec i s = .next t → mayWriteReg i r = false → t.readV r = s.readV r

/-- No instruction but Cxkk depends on the random source or takes a draw from it: started with another draw number it does
the same (10_state.md R34, 42_alu.md R152; the draw number is the model's own, assumption log 2). -/
def Obligations.OnlyRandomDependsOnTheDraw : Prop :=
  ∀ (i : Instr) (s t : State) (d : Nat), (∀ x kk, i ≠ .rnd x kk) → exec i s = .next t →
    exec i { s with draws := d } = .next { t with draws := d }

/-! ### Reset and the invariant -/

/-- The reset state (70_reset_and_hazards.md R261; the zero bytes outside the font are decision D15, the font bytes are the
free parameter FONT, D16). -/
def Obligations.ResetStateIsTheTable : Prop :=
  (∀ r : Reg, State.reset.readV r = 0) ∧ State.reset.I = 0 ∧ State.reset.pc = 0x200 ∧
  (∀ k : Fin 16, State.reset.stack[k.val] = 0) ∧ State.reset.sp = 0 ∧
  State.reset.DT = 0 ∧ State.reset.ST = 0 ∧
  (∀ x y : Nat, Framebuffer.pixel State.reset.fb x y = false) ∧ (∀ k : Reg, State.reset.key[k.val] = false) ∧
  (∀ k : Fin 80, State.reset.memRead (0x050 + k.val) = Config.font[k.val]) ∧
  (∀ a : Nat, a < 4096 → (a < 0x050 ∨ 0x0A0 ≤ a) → State.reset.memRead a = 0) ∧
  State.reset.mode = .running

/-- `reset()` brings every component of the spec's state back to its reset value in every mode, and the random source goes
on (70_reset_and_hazards.md R260, decision D22; the draw number is the model's own, assumption log 2). -/
def Obligations.HostResetRestoresConstruction : Prop :=
  ∀ s : State, hostOp .reset s = .next s.hostReset ∧ s.hostReset.pc = 0x200 ∧
    OnlyChanges [.draws] State.reset s.hostReset ∧ s.hostReset.draws = s.draws

/-- With no program loaded the first step raises `DecodeGap(0x200, 0x0000)` and every later one changes nothing
(70_reset_and_hazards.md R263, 95_test_vectors.md P8; decisions D6 and D15). -/
def Obligations.UnloadedMachineFaultsAtOnce : Prop :=
  ∃ t, step State.reset = .next t ∧ RaisedFault .decodeGap 0x0000 State.reset t ∧
    ∀ n : Nat, Sys2Proof.core.run n t = .next t

/-- The invariant holds at reset. -/
def Obligations.ResetMeetsInvariant : Prop := Inv State.reset

/-- Every step from every state that meets the invariant ends in one that meets it: memory stays in its canonical form, and
a faulted engine's record describes the state it stopped in (60_exceptions.md R220, R222). -/
def Obligations.StepKeepsInvariant : Prop :=
  ∀ s t : State, Inv s → step s = .next t → Inv t

/-- Every schedule of host operations, loads and ticks and resets among the steps, keeps the invariant
(60_exceptions.md R248: a claim holds for every order the host might choose). -/
def Obligations.EveryScheduleKeepsInvariant : Prop :=
  ∀ (ops : List HostOp) (s t : State), Inv s → hostRun ops s = .next t → Inv t

/-! ### Control flow -/

/-- R122: `JP nnn`. -/
def Obligations.JumpWritesItsTarget : Prop :=
  DecodesAs 0xF000 0x1000 (fun w => .jp (fieldNNN w)) ∧
  ∀ (nnn : Word) (s : State), ∃ t, exec (.jp nnn) s = .next t ∧ t.pc = nnn ∧ OnlyChanges [] s t

/-- `JP V0, nnn`: the target is V0 + nnn modulo 2^16, stored unmasked (41_control_flow.md R128; decision D1). -/
def Obligations.IndexedJumpAddsV0 : Prop :=
  DecodesAs 0xF000 0xB000 (fun w => .jpV0 (fieldNNN w)) ∧
  ∀ (nnn : Word) (s : State), ∃ t, exec (.jpV0 nnn) s = .next t ∧
    t.pc.toNat = ((s.readV 0).toNat + nnn.toNat) % 65536 ∧ OnlyChanges [] s t

/-- `CALL nnn` with a free slot pushes the address of the next instruction and jumps (41_control_flow.md R123; that it
pushes `a + 2` is the spec's derivation, 90_conflicts.md C11; the stack pointer's encoding is decision D4). -/
def Obligations.CallPushesTheNextAddress : Prop :=
  DecodesAs 0xF000 0x2000 (fun w => .call (fieldNNN w)) ∧
  ∀ (nnn : Word) (s : State), s.sp.val ≠ 16 →
    ∃ t, exec (.call nnn) s = .next t ∧ t.stack[s.sp.val]? = some (s.pc + 2) ∧
      (∀ k, k ≠ s.sp.val → t.stack[k]? = s.stack[k]?) ∧ t.sp.val = s.sp.val + 1 ∧ t.pc = nnn ∧
      OnlyChanges [.stack, .sp] s t

/-- `CALL nnn` with all 16 slots in use raises `StackOverflow` before it writes anything (60_exceptions.md R226; decisions
D5 and D7). -/
def Obligations.CallWithFullStackFaults : Prop :=
  ∀ (nnn : Word) (s : State), nnn.toNat < 4096 → s.sp.val = 16 →
    ∃ t, exec (.call nnn) s = .next t ∧ RaisedFault .stackOverflow (0x2000 + nnn) s t

/-- `RET` pops into `pc` as stored and leaves the slot as it is, or raises `StackUnderflow` (41_control_flow.md R121;
decisions D4, D5 and D7: the stack pointer's encoding, the kept slot, and the fault before any write). -/
def Obligations.ReturnPopsIntoPc : Prop :=
  DecodesAs 0xFFFF 0x00EE (fun _ => .ret) ∧
  (∀ s : State, s.sp.val ≠ 0 →
    ∃ t, exec .ret s = .next t ∧ t.sp.val = s.sp.val - 1 ∧ s.stack[s.sp.val - 1]? = some t.pc ∧
      OnlyChanges [.sp] s t) ∧
  (∀ s : State, s.sp.val = 0 → ∃ t, exec .ret s = .next t ∧ RaisedFault .stackUnderflow 0x00EE s t)

/-- A call and the return that answers it, whatever the callee did to anything but the stack, resume at the instruction
after the call with the stack pointer as before (95_test_vectors.md S6; 90_conflicts.md C11; decision D4). -/
def Obligations.ReturnResumesAfterTheCall : Prop :=
  ∀ (nnn : Word) (s : State), s.sp.val ≠ 16 →
    ∃ t, exec (.call nnn) s = .next t ∧ t.pc = nnn ∧
      ∀ u : State, u.stack = t.stack → u.sp = t.sp →
        ∃ v, exec .ret u = .next v ∧ v.pc = s.pc + 2 ∧ v.sp = s.sp ∧ OnlyChanges [.sp] u v

/-- R124 and R125: the skips that compare a register with an immediate. -/
def Obligations.ImmediateSkips : Prop :=
  DecodesAs 0xF000 0x3000 (fun w => .seImm (fieldX w) (fieldKK w)) ∧
  DecodesAs 0xF000 0x4000 (fun w => .sneImm (fieldX w) (fieldKK w)) ∧
  ∀ (x : Reg) (kk : Byte) (s : State),
    (∃ t, exec (.seImm x kk) s = .next t ∧
      t.pc = (if (s.readV x).toNat = kk.toNat then s.pc + 4 else s.pc + 2) ∧ OnlyChanges [] s t) ∧
    (∃ t, exec (.sneImm x kk) s = .next t ∧
      t.pc = (if (s.readV x).toNat = kk.toNat then s.pc + 2 else s.pc + 4) ∧ OnlyChanges [] s t)

/-- R126 and R127: the skips that compare two registers' values. -/
def Obligations.RegisterSkips : Prop :=
  DecodesAs 0xF00F 0x5000 (fun w => .seReg (fieldX w) (fieldY w)) ∧
  DecodesAs 0xF00F 0x9000 (fun w => .sneReg (fieldX w) (fieldY w)) ∧
  (∀ w : Word, w.toNat / 4096 = 5 → w.toNat % 16 ≠ 0 → ∃ g, decode w = .error g) ∧
  (∀ w : Word, w.toNat / 4096 = 9 → w.toNat % 16 ≠ 0 → ∃ g, decode w = .error g) ∧
  ∀ (x y : Reg) (s : State),
    (∃ t, exec (.seReg x y) s = .next t ∧
      t.pc = (if (s.readV x).toNat = (s.readV y).toNat then s.pc + 4 else s.pc + 2) ∧ OnlyChanges [] s t) ∧
    (∃ t, exec (.sneReg x y) s = .next t ∧
      t.pc = (if (s.readV x).toNat = (s.readV y).toNat then s.pc + 2 else s.pc + 4) ∧ OnlyChanges [] s t)

/-! ### Register loads and the ALU -/

/-- R141 and R143: the loads of an immediate and of a register. -/
def Obligations.RegisterLoads : Prop :=
  DecodesAs 0xF000 0x6000 (fun w => .ldImm (fieldX w) (fieldKK w)) ∧
  DecodesAs 0xF00F 0x8000 (fun w => .ldReg (fieldX w) (fieldY w)) ∧
  (∀ (x : Reg) (kk : Byte) (s : State), ∃ t, exec (.ldImm x kk) s = .next t ∧ WroteReg x kk.toNat s t) ∧
  (∀ (x y : Reg) (s : State), ∃ t, exec (.ldReg x y) s = .next t ∧ WroteReg x (s.readV y).toNat s t)

/-- R142: `ADD Vx, kk` is modulo 256 and writes no flag. -/
def Obligations.AddImmediateWrapsWithoutFlag : Prop :=
  DecodesAs 0xF000 0x7000 (fun w => .addImm (fieldX w) (fieldKK w)) ∧
  ∀ (x : Reg) (kk : Byte) (s : State), ∃ t, exec (.addImm x kk) s = .next t ∧
    WroteReg x (((s.readV x).toNat + kk.toNat) % 256) s t

/-- R144, R145 and R146: the bitwise instructions, which write no flag. -/
def Obligations.BitwiseInstructions : Prop :=
  DecodesAs 0xF00F 0x8001 (fun w => .orReg (fieldX w) (fieldY w)) ∧
  DecodesAs 0xF00F 0x8002 (fun w => .andReg (fieldX w) (fieldY w)) ∧
  DecodesAs 0xF00F 0x8003 (fun w => .xorReg (fieldX w) (fieldY w)) ∧
  ∀ (x y : Reg) (s : State),
    (∃ t, exec (.orReg x y) s = .next t ∧ WroteReg x ((s.readV x).toNat ||| (s.readV y).toNat) s t) ∧
    (∃ t, exec (.andReg x y) s = .next t ∧ WroteReg x ((s.readV x).toNat &&& (s.readV y).toNat) s t) ∧
    (∃ t, exec (.xorReg x y) s = .next t ∧ WroteReg x ((s.readV x).toNat ^^^ (s.readV y).toNat) s t)

/-- `ADD Vx, Vy`: VF is 1 exactly when the sum exceeds 255, the result is the sum modulo 256 (42_alu.md, section "8xy4 to
8xyE"; that with x = 15 VF ends as the result is decision D9). -/
def Obligations.AddRegistersSetsTheCarry : Prop :=
  DecodesAs 0xF00F 0x8004 (fun w => .addReg (fieldX w) (fieldY w)) ∧
  ∀ (x y : Reg) (s : State), ∃ t, exec (.addReg x y) s = .next t ∧
    WroteFlagThenReg x (if 255 < (s.readV x).toNat + (s.readV y).toNat then 1 else 0)
      (((s.readV x).toNat + (s.readV y).toNat) % 256) s t

/-- `SUB Vx, Vy` and `SUBN Vx, Vy`: VF is 1 exactly when the minuend is strictly greater, the difference is modulo 256
(42_alu.md, section "8xy4 to 8xyE"; that with x = 15 VF ends as the result is decision D9). -/
def Obligations.SubtractionsCompareStrictly : Prop :=
  DecodesAs 0xF00F 0x8005 (fun w => .sub (fieldX w) (fieldY w)) ∧
  DecodesAs 0xF00F 0x8007 (fun w => .subn (fieldX w) (fieldY w)) ∧
  ∀ (x y : Reg) (s : State),
    (∃ t, exec (.sub x y) s = .next t ∧
      WroteFlagThenReg x (if (s.readV y).toNat < (s.readV x).toNat then 1 else 0)
        ((256 + (s.readV x).toNat - (s.readV y).toNat) % 256) s t) ∧
    (∃ t, exec (.subn x y) s = .next t ∧
      WroteFlagThenReg x (if (s.readV x).toNat < (s.readV y).toNat then 1 else 0)
        ((256 + (s.readV y).toNat - (s.readV x).toNat) % 256) s t)

/-- `SHR Vx` and `SHL Vx`: VF is the bit shifted out, the source is Vx whatever the `y` field names (42_alu.md, section
"8xy4 to 8xyE"; that with x = 15 VF ends as the result is decision D9). -/
def Obligations.ShiftsMoveTheOldBitToTheFlag : Prop :=
  DecodesAs 0xF00F 0x8006 (fun w => .shr (fieldX w) (fieldY w)) ∧
  DecodesAs 0xF00F 0x800E (fun w => .shl (fieldX w) (fieldY w)) ∧
  ∀ (x y : Reg) (s : State),
    (∃ t, exec (.shr x y) s = .next t ∧ WroteFlagThenReg x ((s.readV x).toNat % 2) ((s.readV x).toNat / 2) s t) ∧
    (∃ t, exec (.shl x y) s = .next t ∧
      WroteFlagThenReg x ((s.readV x).toNat / 128) ((s.readV x).toNat * 2 % 256) s t)

/-- `RND Vx, kk`: one draw, masked by `kk`; 0 for every draw when `kk` is 0 and the draw itself when `kk` is 0xFF. The draw
is the free value `Config.randomByte` of the model's own draw number (42_alu.md R152; decision D18, assumption log 2). -/
def Obligations.RandomIsTheMaskedDraw : Prop :=
  DecodesAs 0xF000 0xC000 (fun w => .rnd (fieldX w) (fieldKK w)) ∧
  ∀ (x : Reg) (kk : Byte) (s : State), ∃ t, exec (.rnd x kk) s = .next t ∧
    t.readV x = kk &&& Config.randomByte s.draws ∧ (kk = 0x00 → t.readV x = 0) ∧
    (kk = 0xFF → t.readV x = Config.randomByte s.draws) ∧
    (∀ r, r ≠ x → t.readV r = s.readV r) ∧ t.pc = s.pc + 2 ∧ t.draws = s.draws + 1 ∧
    OnlyChanges [.V, .draws] s t

/-! ### The index register and memory transfers -/

/-- R171: `LD I, nnn`; `I` is then at most 0x0FFF. -/
def Obligations.LoadIndexIsTheImmediate : Prop :=
  DecodesAs 0xF000 0xA000 (fun w => .ldI (fieldNNN w)) ∧
  ∀ (nnn : Word) (s : State), ∃ t, exec (.ldI nnn) s = .next t ∧ t.I = nnn ∧
    ((Instr.ldI nnn).wellFormed = true → t.I.toNat ≤ 0x0FFF) ∧ t.pc = s.pc + 2 ∧ OnlyChanges [.I] s t

/-- `ADD I, Vx` is modulo 2^16, unmasked, and writes no flag (43_index_memory.md R172; decision D3). -/
def Obligations.AddToIndexWrapsAtSixteenBits : Prop :=
  DecodesAs 0xF0FF 0xF01E (fun w => .addI (fieldX w)) ∧
  ∀ (x : Reg) (s : State), ∃ t, exec (.addI x) s = .next t ∧
    t.I.toNat = (s.I.toNat + (s.readV x).toNat) % 65536 ∧ t.pc = s.pc + 2 ∧ OnlyChanges [.I] s t

/-- R173: `LD F, Vx` is 0x050 + 5 * Vx for every value of Vx. -/
def Obligations.GlyphAddressIsTheFormula : Prop :=
  DecodesAs 0xF0FF 0xF029 (fun w => .ldF (fieldX w)) ∧
  ∀ (x : Reg) (s : State), ∃ t, exec (.ldF x) s = .next t ∧
    t.I.toNat = 0x050 + 5 * (s.readV x).toNat ∧ t.pc = s.pc + 2 ∧ OnlyChanges [.I] s t

/-- `LD B, Vx` stores the three decimal digits at I, I + 1 and I + 2, each address masked by itself, and nothing else
(43_index_memory.md R174; that `I` is unchanged is decision D19). -/
def Obligations.DecimalDigitsAreStored : Prop :=
  DecodesAs 0xF0FF 0xF033 (fun w => .ldB (fieldX w)) ∧
  ∀ (x : Reg) (s : State), Memory.wf s.mem → ∃ t, exec (.ldB x) s = .next t ∧
    (t.memRead (s.indexAddr 0)).toNat = (s.readV x).toNat / 100 ∧
    (t.memRead (s.indexAddr 1)).toNat = (s.readV x).toNat / 10 % 10 ∧
    (t.memRead (s.indexAddr 2)).toNat = (s.readV x).toNat % 10 ∧
    KeepsMemoryOutside 3 s t ∧ t.pc = s.pc + 2 ∧ OnlyChanges [.mem] s t

/-- `LD [I], Vx` stores V0..Vx from `I` on, each address masked by itself, and nothing else (43_index_memory.md R175; that
`I` is unchanged is decision D19). -/
def Obligations.RegistersAreStoredInOrder : Prop :=
  DecodesAs 0xF0FF 0xF055 (fun w => .storeRegs (fieldX w)) ∧
  ∀ (x : Reg) (s : State), Memory.wf s.mem → ∃ t, exec (.storeRegs x) s = .next t ∧
    (∀ k : Reg, k ≤ x → t.memRead (s.indexAddr k.val) = s.readV k) ∧
    KeepsMemoryOutside (x.val + 1) s t ∧ t.pc = s.pc + 2 ∧ OnlyChanges [.mem] s t

/-- `LD Vx, [I]` loads V0..Vx from `I` on, each address masked by itself, and no other register (43_index_memory.md R176;
that `I` is unchanged is decision D19). -/
def Obligations.RegistersAreLoadedInOrder : Prop :=
  DecodesAs 0xF0FF 0xF065 (fun w => .loadRegs (fieldX w)) ∧
  ∀ (x : Reg) (s : State), ∃ t, exec (.loadRegs x) s = .next t ∧
    (∀ k : Reg, k ≤ x → t.readV k = s.memRead (s.indexAddr k.val)) ∧
    (∀ k : Reg, x < k → t.readV k = s.readV k) ∧ t.pc = s.pc + 2 ∧ OnlyChanges [.V] s t

/-- A block stored with Fx55 comes back with Fx65, whatever has happened to the registers in between, as long as `I` and
memory are as the store left them (43_index_memory.md R176; 95_test_vectors.md S7; decision D19). -/
def Obligations.StoreThenLoadRestoresRegisters : Prop :=
  ∀ (x : Reg) (s : State), Memory.wf s.mem → ∃ t, exec (.storeRegs x) s = .next t ∧
    ∀ u : State, u.I = s.I → (∀ a, u.memRead a = t.memRead a) →
      ∃ v, exec (.loadRegs x) u = .next v ∧ ∀ k : Reg, k ≤ x → v.readV k = s.readV k

/-- Two bytes stored over the next instruction are the next word fetched: no fence and no delay (20_memory.md R70,
70_reset_and_hazards.md R272, both the spec's derivations; decision D19). -/
def Obligations.StoredCodeIsFetchedNext : Prop :=
  ∀ (x : Reg) (s : State), Memory.wf s.mem → 1 ≤ x.val → s.effAddr 0 = maskAddr (s.pc + 2).toNat →
    ∃ t, exec (.storeRegs x) s = .next t ∧ t.fetchWord = wordOfBytes (s.readV 0) (s.readV 1)

/-! ### The framebuffer -/

/-- R190: `CLS` turns every pixel off and writes no flag. -/
def Obligations.ClearTurnsEveryPixelOff : Prop :=
  DecodesAs 0xFFFF 0x00E0 (fun _ => .cls) ∧
  ∀ s : State, ∃ t, exec .cls s = .next t ∧ (∀ x y : Nat, Framebuffer.pixel t.fb x y = false) ∧
    t.pc = s.pc + 2 ∧ OnlyChanges [.fb] s t

/-- `DRW Vx, Vy, n` toggles exactly the pixels under a set bit of the sprite, and VF is 1 exactly when one of them was on
(44_display.md R191; decisions D12, D13 and D14: bit order, n = 0, and the wrap of each pixel). -/
def Obligations.DrawTogglesExactlyTheSprite : Prop :=
  DecodesAs 0xF000 0xD000 (fun w => .drw (fieldX w) (fieldY w) (fieldN w)) ∧
  ∀ (x y : Reg) (n : Nat) (s : State), n < 16 → ∃ t, exec (.drw x y n) s = .next t ∧
    (∀ px py : Nat, px < 64 → py < 32 →
      (UnderSprite s x y n px py → Framebuffer.pixel t.fb px py = !Framebuffer.pixel s.fb px py) ∧
      (¬ UnderSprite s x y n px py → Framebuffer.pixel t.fb px py = Framebuffer.pixel s.fb px py)) ∧
    ((∃ px py : Nat, px < 64 ∧ py < 32 ∧ UnderSprite s x y n px py ∧ Framebuffer.pixel s.fb px py = true) →
      t.readV VF = 1) ∧
    ((∀ px py : Nat, px < 64 → py < 32 → UnderSprite s x y n px py → Framebuffer.pixel s.fb px py = false) →
      t.readV VF = 0) ∧
    (∀ r, r ≠ VF → t.readV r = s.readV r) ∧ t.pc = s.pc + 2 ∧ OnlyChanges [.fb, .V] s t

/-- Drawing the same sprite twice at the same place restores the framebuffer; on a framebuffer that was clear, a sprite with
a set bit reports the collision on the second draw (95_test_vectors.md S5; decisions D12 to D14). The coordinates are held
outside VF, which the first draw overwrites. -/
def Obligations.DrawingTwiceRestoresTheScreen : Prop :=
  ∀ (x y : Reg) (n : Nat) (s : State), n < 16 → x ≠ VF → y ≠ VF →
    ∃ t u, exec (.drw x y n) s = .next t ∧ exec (.drw x y n) t = .next u ∧ u.fb = s.fb ∧
      ((∀ px py : Nat, Framebuffer.pixel s.fb px py = false) →
        (∃ r, r < n ∧ s.memRead (s.indexAddr r) ≠ 0) → t.readV VF = 0 ∧ u.readV VF = 1)

/-- After `CLS`, a draw shows exactly the sprite and reports no collision (95_test_vectors.md S4; decisions D12 to D14). -/
def Obligations.ClearThenDrawShowsTheSprite : Prop :=
  ∀ (x y : Reg) (n : Nat) (s : State), n < 16 →
    ∃ t u, exec .cls s = .next t ∧ exec (.drw x y n) t = .next u ∧ u.readV VF = 0 ∧
      ∀ px py : Nat, px < 64 → py < 32 → (Framebuffer.pixel u.fb px py = true ↔ UnderSprite s x y n px py)

/-! ### The keypad and the timers -/

/-- `SKP Vx` and `SKNP Vx` with a key index in Vx skip by the key's state and change nothing but `pc` (45_keys_timers.md
R200, R201; that a larger index faults is decision D11). -/
def Obligations.KeySkips : Prop :=
  DecodesAs 0xF0FF 0xE09E (fun w => .skp (fieldX w)) ∧
  DecodesAs 0xF0FF 0xE0A1 (fun w => .sknp (fieldX w)) ∧
  ∀ (x : Reg) (s : State), (s.readV x).toNat ≤ 15 →
    (∃ t, exec (.skp x) s = .next t ∧
      t.pc = (if s.key[(s.readV x).toNat]? = some true then s.pc + 4 else s.pc + 2) ∧ OnlyChanges [] s t) ∧
    (∃ t, exec (.sknp x) s = .next t ∧
      t.pc = (if s.key[(s.readV x).toNat]? = some false then s.pc + 4 else s.pc + 2) ∧ OnlyChanges [] s t)

/-- `SKP Vx` and `SKNP Vx` with Vx above 15 raise `KeyIndexRange` before `pc` changes (60_exceptions.md R228; decisions D7
and D11). -/
def Obligations.KeySkipsFaultAboveFifteen : Prop :=
  ∀ (x : Reg) (s : State), 15 < (s.readV x).toNat →
    (∃ t, exec (.skp x) s = .next t ∧
      RaisedFault .keyIndexRange (BitVec.ofNat 16 (0xE09E + 256 * x.val)) s t) ∧
    (∃ t, exec (.sknp x) s = .next t ∧
      RaisedFault .keyIndexRange (BitVec.ofNat 16 (0xE0A1 + 256 * x.val)) s t)

/-- `LD Vx, K` with a key pressed completes at once with the least pressed key and leaves the keypad as it is
(45_keys_timers.md R203; decision D10). -/
def Obligations.KeyWaitTakesTheLeastKey : Prop :=
  DecodesAs 0xF0FF 0xF00A (fun w => .ldKey (fieldX w)) ∧
  ∀ (x k : Reg) (s : State), s.key[k.val] = true → (∀ j : Reg, j < k → s.key[j.val] = false) →
    ∃ t, exec (.ldKey x) s = .next t ∧ WroteReg x k.val s t

/-- `LD Vx, K` with no key pressed enters `AwaitKey(x)` with `pc` at the Fx0A, and the wait ends by a keypad write and the
step after it, not by the write itself (45_keys_timers.md R203, R204; 60_exceptions.md R243; decision D10). -/
def Obligations.KeyWaitEndsByAKeyPress : Prop :=
  ∀ (x : Reg) (s : State), (∀ k : Reg, s.key[k.val] = false) →
    ∃ t, exec (.ldKey x) s = .next t ∧ t.mode = .awaitKey x ∧ t.pc = s.pc ∧ OnlyChanges [.mode] s t ∧
      ∀ (keys : Keypad) (k : Reg), keys[k.val] = true → (∀ j : Reg, j < k → keys[j.val] = false) →
        (t.setKeys keys).mode = .awaitKey x ∧
        ∃ u, step (t.setKeys keys) = .next u ∧ (u.readV x).toNat = k.val ∧
          (∀ r, r ≠ x → u.readV r = s.readV r) ∧ u.pc = s.pc + 2 ∧ u.mode = .running ∧
          OnlyChanges [.V, .mode, .key] t u ∧ u.key = keys

/-- R202, R205 and R206: the instructions that read the delay timer and set the two timers. -/
def Obligations.TimerInstructions : Prop :=
  DecodesAs 0xF0FF 0xF007 (fun w => .ldFromDT (fieldX w)) ∧
  DecodesAs 0xF0FF 0xF015 (fun w => .ldDT (fieldX w)) ∧
  DecodesAs 0xF0FF 0xF018 (fun w => .ldST (fieldX w)) ∧
  ∀ (x : Reg) (s : State),
    (∃ t, exec (.ldFromDT x) s = .next t ∧ WroteReg x s.DT.toNat s t) ∧
    (∃ t, exec (.ldDT x) s = .next t ∧ t.DT = s.readV x ∧ t.pc = s.pc + 2 ∧ OnlyChanges [.DT] s t) ∧
    (∃ t, exec (.ldST x) s = .next t ∧ t.ST = s.readV x ∧ t.pc = s.pc + 2 ∧ OnlyChanges [.ST] s t)

/-! ### The host operations -/

/-- R241: a tick decrements each nonzero timer by 1 and leaves a zero timer at 0, the two independently, and changes nothing
else; so `n` ticks subtract `n` and stop at 0. -/
def Obligations.TicksCountDownToZero : Prop :=
  ∀ s : State,
    s.tick.DT.toNat = (if 0 < s.DT.toNat then s.DT.toNat - 1 else 0) ∧
    s.tick.ST.toNat = (if 0 < s.ST.toNat then s.ST.toNat - 1 else 0) ∧
    s.tick.pc = s.pc ∧ OnlyChanges [.DT, .ST] s s.tick ∧
    ∀ n : Nat, (State.tick^[n] s).DT.toNat = s.DT.toNat - n ∧ (State.tick^[n] s).ST.toNat = s.ST.toNat - n

/-- `load(image)` copies an image of at most 3584 bytes to 0x200 and on, byte for byte, and changes nothing else; a longer
one is refused and changes nothing (20_memory.md R66; decisions D21 and D27). -/
def Obligations.LoadCopiesTheImage : Prop :=
  ∀ (image : List Byte) (s : State), Memory.wf s.mem →
    (image.length ≤ 3584 → ∃ t, s.load image = .ok t ∧
      (∀ (k : Nat) (h : k < image.length), t.memRead (0x200 + k) = image[k]) ∧
      (∀ a : Nat, a < 4096 → (a < 0x200 ∨ 0x200 + image.length ≤ a) → t.memRead a = s.memRead a) ∧
      t.pc = s.pc ∧ OnlyChanges [.mem] s t ∧ hostOp (.load image) s = .next t) ∧
    (3584 < image.length → s.load image = .error .sizeExceeded ∧ hostOp (.load image) s = .next s)

/-- A machine brought up as 70_reset_and_hazards.md R262 says stands in mode `Running` at 0x200 with the image's first word
to fetch and the host's keypad, whatever state it was in before (decisions D21, D22 and D27). -/
def Obligations.BootedMachineStartsTheImage : Prop :=
  ∀ (s : State) (b0 b1 : Byte) (rest : List Byte) (keys : Keypad), rest.length ≤ 3582 →
    ∃ t, s.boot (b0 :: b1 :: rest) keys = .ok t ∧ t.mode = .running ∧ t.pc = 0x200 ∧
      t.fetchWord = wordOfBytes b0 b1 ∧ t.key = keys ∧
      OnlyChanges [.mem, .key, .draws] State.reset t ∧
      ∀ i, decode (wordOfBytes b0 b1) = .ok i → step t = exec i t
end

