-- ==== Sys2Proof/Laws/Decode.lean ====
section
/-! SUPPORT. The bit fields and the layouts of a word as numbers, so that a claim about an encoding is arithmetic. -/

namespace Sys2Proof

/-! ### The fields of a word -/

theorem fieldOp_eq (w : Word) : fieldOp w = w.toNat / 4096 := by
  have := w.isLt
  simp [fieldOp, Nat.shiftRight_eq_div_pow]; omega

theorem fieldX_val (w : Word) : (fieldX w).val = w.toNat / 256 % 16 := by
  simp [fieldX, Nat.shiftRight_eq_div_pow]

theorem fieldY_val (w : Word) : (fieldY w).val = w.toNat / 16 % 16 := by
  simp [fieldY, Nat.shiftRight_eq_div_pow]

theorem fieldN_eq (w : Word) : fieldN w = w.toNat % 16 := by simp [fieldN]

theorem fieldKK_toNat (w : Word) : (fieldKK w).toNat = w.toNat % 256 := by simp [fieldKK]

theorem fieldNNN_toNat (w : Word) : (fieldNNN w).toNat = w.toNat % 4096 := by
  simp [fieldNNN]; omega

theorem hiByte_toNat (w : Word) : (hiByte w).toNat = w.toNat / 256 := by
  have := w.isLt
  simp [hiByte, Nat.shiftRight_eq_div_pow]; omega

theorem loByte_toNat (w : Word) : (loByte w).toNat = w.toNat % 256 := by simp [loByte]

/-- The concatenation of two bit vectors as a number. -/
theorem append_toNat {v w : Nat} (a : BitVec v) (b : BitVec w) : (a ++ b).toNat = a.toNat * 2 ^ w + b.toNat := by
  rw [BitVec.toNat_append, ← Nat.shiftLeft_add_eq_or_of_lt b.isLt, Nat.shiftLeft_eq]

/-- The word of two bytes: the byte at the lower address is the high one (20_memory.md R56). -/
theorem wordOfBytes_toNat (hi lo : Byte) : (wordOfBytes hi lo).toNat = hi.toNat * 256 + lo.toNat := append_toNat hi lo

theorem wordOfBytes_hi_lo (w : Word) : wordOfBytes (hiByte w) (loByte w) = w := by
  apply BitVec.eq_of_toNat_eq
  rw [wordOfBytes_toNat, hiByte_toNat, loByte_toNat]; omega

/-! ### The layouts of a word -/

theorem packXYN_toNat (op : BitVec 4) (x y : Reg) (n : BitVec 4) :
    (packXYN op x y n).toNat = op.toNat * 4096 + x.val * 256 + y.val * 16 + n.toNat := by
  have := x.isLt; have := y.isLt
  simp only [packXYN, append_toNat, BitVec.toNat_ofNat]; omega

theorem packXKK_toNat (op : BitVec 4) (x : Reg) (kk : Byte) :
    (packXKK op x kk).toNat = op.toNat * 4096 + x.val * 256 + kk.toNat := by
  have := x.isLt
  simp only [packXKK, append_toNat, BitVec.toNat_ofNat]; omega

theorem packNNN_toNat (op : BitVec 4) (nnn : Word) :
    (packNNN op nnn).toNat = op.toNat * 4096 + nnn.toNat % 4096 := by
  simp only [packNNN, append_toNat, BitVec.toNat_setWidth]; omega

/-! ### Fields of laid-out words, and words laid out from their fields -/

@[simp] theorem fieldOp_packXYN (op : BitVec 4) (x y : Reg) (n : BitVec 4) :
    fieldOp (packXYN op x y n) = op.toNat := by
  have := x.isLt; have := y.isLt; have := n.isLt
  rw [fieldOp_eq, packXYN_toNat]; omega

@[simp] theorem fieldX_packXYN (op : BitVec 4) (x y : Reg) (n : BitVec 4) : fieldX (packXYN op x y n) = x := by
  have := x.isLt; have := y.isLt; have := n.isLt
  apply Fin.ext; rw [fieldX_val, packXYN_toNat]; omega

@[simp] theorem fieldY_packXYN (op : BitVec 4) (x y : Reg) (n : BitVec 4) : fieldY (packXYN op x y n) = y := by
  have := x.isLt; have := y.isLt; have := n.isLt
  apply Fin.ext; rw [fieldY_val, packXYN_toNat]; omega

@[simp] theorem fieldN_packXYN (op : BitVec 4) (x y : Reg) (n : BitVec 4) : fieldN (packXYN op x y n) = n.toNat := by
  have := n.isLt
  rw [fieldN_eq, packXYN_toNat]; omega

@[simp] theorem fieldOp_packXKK (op : BitVec 4) (x : Reg) (kk : Byte) : fieldOp (packXKK op x kk) = op.toNat := by
  have := x.isLt; have := kk.isLt
  rw [fieldOp_eq, packXKK_toNat]; omega

@[simp] theorem fieldX_packXKK (op : BitVec 4) (x : Reg) (kk : Byte) : fieldX (packXKK op x kk) = x := by
  have := x.isLt; have := kk.isLt
  apply Fin.ext; rw [fieldX_val, packXKK_toNat]; omega

@[simp] theorem fieldKK_packXKK (op : BitVec 4) (x : Reg) (kk : Byte) : fieldKK (packXKK op x kk) = kk := by
  have := kk.isLt
  apply BitVec.eq_of_toNat_eq; rw [fieldKK_toNat, packXKK_toNat]; omega

@[simp] theorem fieldOp_packNNN (op : BitVec 4) (nnn : Word) : fieldOp (packNNN op nnn) = op.toNat := by
  rw [fieldOp_eq, packNNN_toNat]; omega

theorem fieldNNN_packNNN (op : BitVec 4) (nnn : Word) (h : nnn.toNat < 4096) : fieldNNN (packNNN op nnn) = nnn := by
  apply BitVec.eq_of_toNat_eq; rw [fieldNNN_toNat, packNNN_toNat]; omega

theorem packXYN_fields (w : Word) (op n : BitVec 4) (hop : fieldOp w = op.toNat) (hn : fieldN w = n.toNat) :
    packXYN op (fieldX w) (fieldY w) n = w := by
  rw [fieldOp_eq] at hop; rw [fieldN_eq] at hn
  apply BitVec.eq_of_toNat_eq; rw [packXYN_toNat, fieldX_val, fieldY_val]; omega

theorem packXKK_fields (w : Word) (op : BitVec 4) (kk : Byte) (hop : fieldOp w = op.toNat)
    (hkk : (fieldKK w).toNat = kk.toNat) : packXKK op (fieldX w) kk = w := by
  rw [fieldOp_eq] at hop; rw [fieldKK_toNat] at hkk
  apply BitVec.eq_of_toNat_eq; rw [packXKK_toNat, fieldX_val]; omega

theorem packNNN_fields (w : Word) (op : BitVec 4) (hop : fieldOp w = op.toNat) : packNNN op (fieldNNN w) = w := by
  rw [fieldOp_eq] at hop
  apply BitVec.eq_of_toNat_eq; rw [packNNN_toNat, fieldNNN_toNat]; omega

theorem fieldOp_lt (w : Word) : fieldOp w < 16 := by have := w.isLt; rw [fieldOp_eq]; omega

theorem fieldN_lt (w : Word) : fieldN w < 16 := by rw [fieldN_eq]; omega

theorem fieldNNN_lt (w : Word) : (fieldNNN w).toNat < 4096 := by rw [fieldNNN_toNat]; omega

/-! ### The masks of the opcode map -/

/-- The mask of the rows with one fixed digit keeps the family. -/
theorem and_F000_toNat (w : Word) : (w &&& (0xF000 : Word)).toNat = w.toNat / 4096 * 4096 := by
  have h : w &&& (0xF000 : Word) = w.extractLsb' 12 4 ++ (0 : BitVec 12) := by
    refine BitVec.eq_of_getLsbD_eq fun i hi => ?_
    simp only [BitVec.getLsbD_and, BitVec.getLsbD_append, BitVec.getLsbD_extractLsb']
    interval_cases i <;> simp
  rw [h, append_toNat]
  have := fieldOp_eq w
  simp only [fieldOp] at this
  rw [this]; simp

/-- The mask of the rows with a fixed first and last digit keeps those. -/
theorem and_F00F_toNat (w : Word) : (w &&& (0xF00F : Word)).toNat = w.toNat / 4096 * 4096 + w.toNat % 16 := by
  have h : w &&& (0xF00F : Word) = w.extractLsb' 12 4 ++ (0 : BitVec 8) ++ w.extractLsb' 0 4 := by
    refine BitVec.eq_of_getLsbD_eq fun i hi => ?_
    simp only [BitVec.getLsbD_and, BitVec.getLsbD_append, BitVec.getLsbD_extractLsb']
    interval_cases i <;> simp
  rw [h, append_toNat, append_toNat]
  have h1 := fieldOp_eq w
  have h2 := fieldN_eq w
  simp only [fieldOp, fieldN] at h1 h2
  rw [h1, h2]; simp; omega

/-- The mask of the rows with a fixed first digit and low byte keeps those. -/
theorem and_F0FF_toNat (w : Word) : (w &&& (0xF0FF : Word)).toNat = w.toNat / 4096 * 4096 + w.toNat % 256 := by
  have h : w &&& (0xF0FF : Word) = w.extractLsb' 12 4 ++ (0 : BitVec 4) ++ w.extractLsb' 0 8 := by
    refine BitVec.eq_of_getLsbD_eq fun i hi => ?_
    simp only [BitVec.getLsbD_and, BitVec.getLsbD_append, BitVec.getLsbD_extractLsb']
    interval_cases i <;> simp
  rw [h, append_toNat, append_toNat]
  have h1 := fieldOp_eq w
  have h2 := fieldKK_toNat w
  simp only [fieldOp, fieldKK] at h1 h2
  rw [h1, h2]; simp; omega

/-- The mask of the rows that fix the whole word keeps it. -/
theorem and_FFFF (w : Word) : w &&& (0xFFFF : Word) = w := by
  ext i hi; interval_cases i <;> simp

end Sys2Proof
end

