-- ==== Sys2Proof/Laws/State.lean ====
section
/-! SUPPORT. What each update of the state leaves in each field: one lemma per field per update, so that no proof unfolds a
record update. -/

namespace Sys2Proof.Machine

/-! ### `State.writeV` -/

@[simp] theorem State.writeV_mem (s : State) (r : Reg) (v : Byte) : (s.writeV r v).mem = s.mem := rfl
@[simp] theorem State.writeV_V (s : State) (r : Reg) (v : Byte) : (s.writeV r v).V = s.V.set r.val v := rfl
@[simp] theorem State.writeV_I (s : State) (r : Reg) (v : Byte) : (s.writeV r v).I = s.I := rfl
@[simp] theorem State.writeV_pc (s : State) (r : Reg) (v : Byte) : (s.writeV r v).pc = s.pc := rfl
@[simp] theorem State.writeV_stack (s : State) (r : Reg) (v : Byte) : (s.writeV r v).stack = s.stack := rfl
@[simp] theorem State.writeV_sp (s : State) (r : Reg) (v : Byte) : (s.writeV r v).sp = s.sp := rfl
@[simp] theorem State.writeV_DT (s : State) (r : Reg) (v : Byte) : (s.writeV r v).DT = s.DT := rfl
@[simp] theorem State.writeV_ST (s : State) (r : Reg) (v : Byte) : (s.writeV r v).ST = s.ST := rfl
@[simp] theorem State.writeV_fb (s : State) (r : Reg) (v : Byte) : (s.writeV r v).fb = s.fb := rfl
@[simp] theorem State.writeV_key (s : State) (r : Reg) (v : Byte) : (s.writeV r v).key = s.key := rfl
@[simp] theorem State.writeV_mode (s : State) (r : Reg) (v : Byte) : (s.writeV r v).mode = s.mode := rfl
@[simp] theorem State.writeV_draws (s : State) (r : Reg) (v : Byte) : (s.writeV r v).draws = s.draws := rfl

/-! ### `State.writeFlagThenResult` -/

@[simp] theorem State.writeFlagThenResult_mem (s : State) (x : Reg) (flag result : Byte) :
    (s.writeFlagThenResult x flag result).mem = s.mem := rfl
@[simp] theorem State.writeFlagThenResult_V (s : State) (x : Reg) (flag result : Byte) :
    (s.writeFlagThenResult x flag result).V = (s.V.set VF.val flag).set x.val result := rfl
@[simp] theorem State.writeFlagThenResult_I (s : State) (x : Reg) (flag result : Byte) :
    (s.writeFlagThenResult x flag result).I = s.I := rfl
@[simp] theorem State.writeFlagThenResult_pc (s : State) (x : Reg) (flag result : Byte) :
    (s.writeFlagThenResult x flag result).pc = s.pc := rfl
@[simp] theorem State.writeFlagThenResult_stack (s : State) (x : Reg) (flag result : Byte) :
    (s.writeFlagThenResult x flag result).stack = s.stack := rfl
@[simp] theorem State.writeFlagThenResult_sp (s : State) (x : Reg) (flag result : Byte) :
    (s.writeFlagThenResult x flag result).sp = s.sp := rfl
@[simp] theorem State.writeFlagThenResult_DT (s : State) (x : Reg) (flag result : Byte) :
    (s.writeFlagThenResult x flag result).DT = s.DT := rfl
@[simp] theorem State.writeFlagThenResult_ST (s : State) (x : Reg) (flag result : Byte) :
    (s.writeFlagThenResult x flag result).ST = s.ST := rfl
@[simp] theorem State.writeFlagThenResult_fb (s : State) (x : Reg) (flag result : Byte) :
    (s.writeFlagThenResult x flag result).fb = s.fb := rfl
@[simp] theorem State.writeFlagThenResult_key (s : State) (x : Reg) (flag result : Byte) :
    (s.writeFlagThenResult x flag result).key = s.key := rfl
@[simp] theorem State.writeFlagThenResult_mode (s : State) (x : Reg) (flag result : Byte) :
    (s.writeFlagThenResult x flag result).mode = s.mode := rfl
@[simp] theorem State.writeFlagThenResult_draws (s : State) (x : Reg) (flag result : Byte) :
    (s.writeFlagThenResult x flag result).draws = s.draws := rfl

/-! ### `State.writeI` -/

@[simp] theorem State.writeI_mem (s : State) (v : Word) : (s.writeI v).mem = s.mem := rfl
@[simp] theorem State.writeI_V (s : State) (v : Word) : (s.writeI v).V = s.V := rfl
@[simp] theorem State.writeI_I (s : State) (v : Word) : (s.writeI v).I = v := rfl
@[simp] theorem State.writeI_pc (s : State) (v : Word) : (s.writeI v).pc = s.pc := rfl
@[simp] theorem State.writeI_stack (s : State) (v : Word) : (s.writeI v).stack = s.stack := rfl
@[simp] theorem State.writeI_sp (s : State) (v : Word) : (s.writeI v).sp = s.sp := rfl
@[simp] theorem State.writeI_DT (s : State) (v : Word) : (s.writeI v).DT = s.DT := rfl
@[simp] theorem State.writeI_ST (s : State) (v : Word) : (s.writeI v).ST = s.ST := rfl
@[simp] theorem State.writeI_fb (s : State) (v : Word) : (s.writeI v).fb = s.fb := rfl
@[simp] theorem State.writeI_key (s : State) (v : Word) : (s.writeI v).key = s.key := rfl
@[simp] theorem State.writeI_mode (s : State) (v : Word) : (s.writeI v).mode = s.mode := rfl
@[simp] theorem State.writeI_draws (s : State) (v : Word) : (s.writeI v).draws = s.draws := rfl

/-! ### `State.setPc` -/

@[simp] theorem State.setPc_mem (s : State) (target : Word) : (s.setPc target).mem = s.mem := rfl
@[simp] theorem State.setPc_V (s : State) (target : Word) : (s.setPc target).V = s.V := rfl
@[simp] theorem State.setPc_I (s : State) (target : Word) : (s.setPc target).I = s.I := rfl
@[simp] theorem State.setPc_pc (s : State) (target : Word) : (s.setPc target).pc = target := rfl
@[simp] theorem State.setPc_stack (s : State) (target : Word) : (s.setPc target).stack = s.stack := rfl
@[simp] theorem State.setPc_sp (s : State) (target : Word) : (s.setPc target).sp = s.sp := rfl
@[simp] theorem State.setPc_DT (s : State) (target : Word) : (s.setPc target).DT = s.DT := rfl
@[simp] theorem State.setPc_ST (s : State) (target : Word) : (s.setPc target).ST = s.ST := rfl
@[simp] theorem State.setPc_fb (s : State) (target : Word) : (s.setPc target).fb = s.fb := rfl
@[simp] theorem State.setPc_key (s : State) (target : Word) : (s.setPc target).key = s.key := rfl
@[simp] theorem State.setPc_mode (s : State) (target : Word) : (s.setPc target).mode = s.mode := rfl
@[simp] theorem State.setPc_draws (s : State) (target : Word) : (s.setPc target).draws = s.draws := rfl

/-! ### `State.advance` -/

@[simp] theorem State.advance_mem (s : State) (k : Word) : (s.advance k).mem = s.mem := rfl
@[simp] theorem State.advance_V (s : State) (k : Word) : (s.advance k).V = s.V := rfl
@[simp] theorem State.advance_I (s : State) (k : Word) : (s.advance k).I = s.I := rfl
@[simp] theorem State.advance_pc (s : State) (k : Word) : (s.advance k).pc = s.pc + k := rfl
@[simp] theorem State.advance_stack (s : State) (k : Word) : (s.advance k).stack = s.stack := rfl
@[simp] theorem State.advance_sp (s : State) (k : Word) : (s.advance k).sp = s.sp := rfl
@[simp] theorem State.advance_DT (s : State) (k : Word) : (s.advance k).DT = s.DT := rfl
@[simp] theorem State.advance_ST (s : State) (k : Word) : (s.advance k).ST = s.ST := rfl
@[simp] theorem State.advance_fb (s : State) (k : Word) : (s.advance k).fb = s.fb := rfl
@[simp] theorem State.advance_key (s : State) (k : Word) : (s.advance k).key = s.key := rfl
@[simp] theorem State.advance_mode (s : State) (k : Word) : (s.advance k).mode = s.mode := rfl
@[simp] theorem State.advance_draws (s : State) (k : Word) : (s.advance k).draws = s.draws := rfl

/-! ### `State.skipIf` -/

@[simp] theorem State.skipIf_mem (s : State) (c : Bool) : (s.skipIf c).mem = s.mem := rfl
@[simp] theorem State.skipIf_V (s : State) (c : Bool) : (s.skipIf c).V = s.V := rfl
@[simp] theorem State.skipIf_I (s : State) (c : Bool) : (s.skipIf c).I = s.I := rfl
@[simp] theorem State.skipIf_pc (s : State) (c : Bool) : (s.skipIf c).pc = s.pc + (if c then 4 else 2) := rfl
@[simp] theorem State.skipIf_stack (s : State) (c : Bool) : (s.skipIf c).stack = s.stack := rfl
@[simp] theorem State.skipIf_sp (s : State) (c : Bool) : (s.skipIf c).sp = s.sp := rfl
@[simp] theorem State.skipIf_DT (s : State) (c : Bool) : (s.skipIf c).DT = s.DT := rfl
@[simp] theorem State.skipIf_ST (s : State) (c : Bool) : (s.skipIf c).ST = s.ST := rfl
@[simp] theorem State.skipIf_fb (s : State) (c : Bool) : (s.skipIf c).fb = s.fb := rfl
@[simp] theorem State.skipIf_key (s : State) (c : Bool) : (s.skipIf c).key = s.key := rfl
@[simp] theorem State.skipIf_mode (s : State) (c : Bool) : (s.skipIf c).mode = s.mode := rfl
@[simp] theorem State.skipIf_draws (s : State) (c : Bool) : (s.skipIf c).draws = s.draws := rfl

/-! ### `State.memWriteBytes` -/

@[simp] theorem State.memWriteBytes_mem (s : State) (base : Nat) (bs : List Byte) :
    (s.memWriteBytes base bs).mem = Memory.writeBytes s.mem base bs := rfl
@[simp] theorem State.memWriteBytes_V (s : State) (base : Nat) (bs : List Byte) :
    (s.memWriteBytes base bs).V = s.V := rfl
@[simp] theorem State.memWriteBytes_I (s : State) (base : Nat) (bs : List Byte) :
    (s.memWriteBytes base bs).I = s.I := rfl
@[simp] theorem State.memWriteBytes_pc (s : State) (base : Nat) (bs : List Byte) :
    (s.memWriteBytes base bs).pc = s.pc := rfl
@[simp] theorem State.memWriteBytes_stack (s : State) (base : Nat) (bs : List Byte) :
    (s.memWriteBytes base bs).stack = s.stack := rfl
@[simp] theorem State.memWriteBytes_sp (s : State) (base : Nat) (bs : List Byte) :
    (s.memWriteBytes base bs).sp = s.sp := rfl
@[simp] theorem State.memWriteBytes_DT (s : State) (base : Nat) (bs : List Byte) :
    (s.memWriteBytes base bs).DT = s.DT := rfl
@[simp] theorem State.memWriteBytes_ST (s : State) (base : Nat) (bs : List Byte) :
    (s.memWriteBytes base bs).ST = s.ST := rfl
@[simp] theorem State.memWriteBytes_fb (s : State) (base : Nat) (bs : List Byte) :
    (s.memWriteBytes base bs).fb = s.fb := rfl
@[simp] theorem State.memWriteBytes_key (s : State) (base : Nat) (bs : List Byte) :
    (s.memWriteBytes base bs).key = s.key := rfl
@[simp] theorem State.memWriteBytes_mode (s : State) (base : Nat) (bs : List Byte) :
    (s.memWriteBytes base bs).mode = s.mode := rfl
@[simp] theorem State.memWriteBytes_draws (s : State) (base : Nat) (bs : List Byte) :
    (s.memWriteBytes base bs).draws = s.draws := rfl

/-! ### `State.raise` -/

@[simp] theorem State.raise_mem (s : State) (kind : FaultKind) (opcode : Word) :
    (s.raise kind opcode).mem = s.mem := rfl
@[simp] theorem State.raise_V (s : State) (kind : FaultKind) (opcode : Word) : (s.raise kind opcode).V = s.V := rfl
@[simp] theorem State.raise_I (s : State) (kind : FaultKind) (opcode : Word) : (s.raise kind opcode).I = s.I := rfl
@[simp] theorem State.raise_pc (s : State) (kind : FaultKind) (opcode : Word) : (s.raise kind opcode).pc = s.pc := rfl
@[simp] theorem State.raise_stack (s : State) (kind : FaultKind) (opcode : Word) :
    (s.raise kind opcode).stack = s.stack := rfl
@[simp] theorem State.raise_sp (s : State) (kind : FaultKind) (opcode : Word) : (s.raise kind opcode).sp = s.sp := rfl
@[simp] theorem State.raise_DT (s : State) (kind : FaultKind) (opcode : Word) : (s.raise kind opcode).DT = s.DT := rfl
@[simp] theorem State.raise_ST (s : State) (kind : FaultKind) (opcode : Word) : (s.raise kind opcode).ST = s.ST := rfl
@[simp] theorem State.raise_fb (s : State) (kind : FaultKind) (opcode : Word) : (s.raise kind opcode).fb = s.fb := rfl
@[simp] theorem State.raise_key (s : State) (kind : FaultKind) (opcode : Word) :
    (s.raise kind opcode).key = s.key := rfl
@[simp] theorem State.raise_mode (s : State) (kind : FaultKind) (opcode : Word) :
    (s.raise kind opcode).mode = .faulted { kind := kind, addr := s.pc, opcode := opcode } := rfl
@[simp] theorem State.raise_draws (s : State) (kind : FaultKind) (opcode : Word) :
    (s.raise kind opcode).draws = s.draws := rfl

/-! ### `State.finishV` -/

@[simp] theorem State.finishV_mem (s : State) (x : Reg) (result : Byte) : (s.finishV x result).mem = s.mem := rfl
@[simp] theorem State.finishV_V (s : State) (x : Reg) (result : Byte) :
    (s.finishV x result).V = s.V.set x.val result := rfl
@[simp] theorem State.finishV_I (s : State) (x : Reg) (result : Byte) : (s.finishV x result).I = s.I := rfl
@[simp] theorem State.finishV_pc (s : State) (x : Reg) (result : Byte) : (s.finishV x result).pc = s.pc + 2 := rfl
@[simp] theorem State.finishV_stack (s : State) (x : Reg) (result : Byte) : (s.finishV x result).stack = s.stack := rfl
@[simp] theorem State.finishV_sp (s : State) (x : Reg) (result : Byte) : (s.finishV x result).sp = s.sp := rfl
@[simp] theorem State.finishV_DT (s : State) (x : Reg) (result : Byte) : (s.finishV x result).DT = s.DT := rfl
@[simp] theorem State.finishV_ST (s : State) (x : Reg) (result : Byte) : (s.finishV x result).ST = s.ST := rfl
@[simp] theorem State.finishV_fb (s : State) (x : Reg) (result : Byte) : (s.finishV x result).fb = s.fb := rfl
@[simp] theorem State.finishV_key (s : State) (x : Reg) (result : Byte) : (s.finishV x result).key = s.key := rfl
@[simp] theorem State.finishV_mode (s : State) (x : Reg) (result : Byte) : (s.finishV x result).mode = s.mode := rfl
@[simp] theorem State.finishV_draws (s : State) (x : Reg) (result : Byte) : (s.finishV x result).draws = s.draws := rfl

/-! ### `State.finishVFlag` -/

@[simp] theorem State.finishVFlag_mem (s : State) (x : Reg) (flag result : Byte) :
    (s.finishVFlag x flag result).mem = s.mem := rfl
@[simp] theorem State.finishVFlag_V (s : State) (x : Reg) (flag result : Byte) :
    (s.finishVFlag x flag result).V = (s.V.set VF.val flag).set x.val result := rfl
@[simp] theorem State.finishVFlag_I (s : State) (x : Reg) (flag result : Byte) :
    (s.finishVFlag x flag result).I = s.I := rfl
@[simp] theorem State.finishVFlag_pc (s : State) (x : Reg) (flag result : Byte) :
    (s.finishVFlag x flag result).pc = s.pc + 2 := rfl
@[simp] theorem State.finishVFlag_stack (s : State) (x : Reg) (flag result : Byte) :
    (s.finishVFlag x flag result).stack = s.stack := rfl
@[simp] theorem State.finishVFlag_sp (s : State) (x : Reg) (flag result : Byte) :
    (s.finishVFlag x flag result).sp = s.sp := rfl
@[simp] theorem State.finishVFlag_DT (s : State) (x : Reg) (flag result : Byte) :
    (s.finishVFlag x flag result).DT = s.DT := rfl
@[simp] theorem State.finishVFlag_ST (s : State) (x : Reg) (flag result : Byte) :
    (s.finishVFlag x flag result).ST = s.ST := rfl
@[simp] theorem State.finishVFlag_fb (s : State) (x : Reg) (flag result : Byte) :
    (s.finishVFlag x flag result).fb = s.fb := rfl
@[simp] theorem State.finishVFlag_key (s : State) (x : Reg) (flag result : Byte) :
    (s.finishVFlag x flag result).key = s.key := rfl
@[simp] theorem State.finishVFlag_mode (s : State) (x : Reg) (flag result : Byte) :
    (s.finishVFlag x flag result).mode = s.mode := rfl
@[simp] theorem State.finishVFlag_draws (s : State) (x : Reg) (flag result : Byte) :
    (s.finishVFlag x flag result).draws = s.draws := rfl

/-! ### `State.completeKey` -/

@[simp] theorem State.completeKey_mem (s : State) (x k : Reg) : (s.completeKey x k).mem = s.mem := rfl
@[simp] theorem State.completeKey_V (s : State) (x k : Reg) : (s.completeKey x k).V = s.V.set x.val (keyByte k) := rfl
@[simp] theorem State.completeKey_I (s : State) (x k : Reg) : (s.completeKey x k).I = s.I := rfl
@[simp] theorem State.completeKey_pc (s : State) (x k : Reg) : (s.completeKey x k).pc = s.pc + 2 := rfl
@[simp] theorem State.completeKey_stack (s : State) (x k : Reg) : (s.completeKey x k).stack = s.stack := rfl
@[simp] theorem State.completeKey_sp (s : State) (x k : Reg) : (s.completeKey x k).sp = s.sp := rfl
@[simp] theorem State.completeKey_DT (s : State) (x k : Reg) : (s.completeKey x k).DT = s.DT := rfl
@[simp] theorem State.completeKey_ST (s : State) (x k : Reg) : (s.completeKey x k).ST = s.ST := rfl
@[simp] theorem State.completeKey_fb (s : State) (x k : Reg) : (s.completeKey x k).fb = s.fb := rfl
@[simp] theorem State.completeKey_key (s : State) (x k : Reg) : (s.completeKey x k).key = s.key := rfl
@[simp] theorem State.completeKey_mode (s : State) (x k : Reg) : (s.completeKey x k).mode = s.mode := rfl
@[simp] theorem State.completeKey_draws (s : State) (x k : Reg) : (s.completeKey x k).draws = s.draws := rfl

/-! ### `State.withWordAtPc` -/

@[simp] theorem State.withWordAtPc_mem (s : State) (w : Word) :
    (s.withWordAtPc w).mem = Memory.writeBytes s.mem s.pc.toNat [hiByte w, loByte w] := rfl
@[simp] theorem State.withWordAtPc_V (s : State) (w : Word) : (s.withWordAtPc w).V = s.V := rfl
@[simp] theorem State.withWordAtPc_I (s : State) (w : Word) : (s.withWordAtPc w).I = s.I := rfl
@[simp] theorem State.withWordAtPc_pc (s : State) (w : Word) : (s.withWordAtPc w).pc = s.pc := rfl
@[simp] theorem State.withWordAtPc_stack (s : State) (w : Word) : (s.withWordAtPc w).stack = s.stack := rfl
@[simp] theorem State.withWordAtPc_sp (s : State) (w : Word) : (s.withWordAtPc w).sp = s.sp := rfl
@[simp] theorem State.withWordAtPc_DT (s : State) (w : Word) : (s.withWordAtPc w).DT = s.DT := rfl
@[simp] theorem State.withWordAtPc_ST (s : State) (w : Word) : (s.withWordAtPc w).ST = s.ST := rfl
@[simp] theorem State.withWordAtPc_fb (s : State) (w : Word) : (s.withWordAtPc w).fb = s.fb := rfl
@[simp] theorem State.withWordAtPc_key (s : State) (w : Word) : (s.withWordAtPc w).key = s.key := rfl
@[simp] theorem State.withWordAtPc_mode (s : State) (w : Word) : (s.withWordAtPc w).mode = .running := rfl
@[simp] theorem State.withWordAtPc_draws (s : State) (w : Word) : (s.withWordAtPc w).draws = s.draws := rfl

/-! ### `State.tick` -/

@[simp] theorem State.tick_mem (s : State) : (s.tick).mem = s.mem := rfl
@[simp] theorem State.tick_V (s : State) : (s.tick).V = s.V := rfl
@[simp] theorem State.tick_I (s : State) : (s.tick).I = s.I := rfl
@[simp] theorem State.tick_pc (s : State) : (s.tick).pc = s.pc := rfl
@[simp] theorem State.tick_stack (s : State) : (s.tick).stack = s.stack := rfl
@[simp] theorem State.tick_sp (s : State) : (s.tick).sp = s.sp := rfl
@[simp] theorem State.tick_DT (s : State) : (s.tick).DT = tickTimer s.DT := rfl
@[simp] theorem State.tick_ST (s : State) : (s.tick).ST = tickTimer s.ST := rfl
@[simp] theorem State.tick_fb (s : State) : (s.tick).fb = s.fb := rfl
@[simp] theorem State.tick_key (s : State) : (s.tick).key = s.key := rfl
@[simp] theorem State.tick_mode (s : State) : (s.tick).mode = s.mode := rfl
@[simp] theorem State.tick_draws (s : State) : (s.tick).draws = s.draws := rfl

/-! ### `State.setKeys` -/

@[simp] theorem State.setKeys_mem (s : State) (k : Keypad) : (s.setKeys k).mem = s.mem := rfl
@[simp] theorem State.setKeys_V (s : State) (k : Keypad) : (s.setKeys k).V = s.V := rfl
@[simp] theorem State.setKeys_I (s : State) (k : Keypad) : (s.setKeys k).I = s.I := rfl
@[simp] theorem State.setKeys_pc (s : State) (k : Keypad) : (s.setKeys k).pc = s.pc := rfl
@[simp] theorem State.setKeys_stack (s : State) (k : Keypad) : (s.setKeys k).stack = s.stack := rfl
@[simp] theorem State.setKeys_sp (s : State) (k : Keypad) : (s.setKeys k).sp = s.sp := rfl
@[simp] theorem State.setKeys_DT (s : State) (k : Keypad) : (s.setKeys k).DT = s.DT := rfl
@[simp] theorem State.setKeys_ST (s : State) (k : Keypad) : (s.setKeys k).ST = s.ST := rfl
@[simp] theorem State.setKeys_fb (s : State) (k : Keypad) : (s.setKeys k).fb = s.fb := rfl
@[simp] theorem State.setKeys_key (s : State) (k : Keypad) : (s.setKeys k).key = k := rfl
@[simp] theorem State.setKeys_mode (s : State) (k : Keypad) : (s.setKeys k).mode = s.mode := rfl
@[simp] theorem State.setKeys_draws (s : State) (k : Keypad) : (s.setKeys k).draws = s.draws := rfl

end Sys2Proof.Machine
end

