-- ==== Sys2Proof/Laws/Memory.lean ====
section
/-! SUPPORT. The laws of memory: every operation keeps the canonical form, and what a read gives after a write. -/

namespace Sys2Proof.Machine

theorem maskAddr_lt (a : Nat) : maskAddr a < Config.memSize := Nat.mod_lt _ (by decide)

@[simp] theorem maskAddr_maskAddr (a : Nat) : maskAddr (maskAddr a) = maskAddr a := Nat.mod_mod _ _

theorem maskAddr_eq_mod (a : Nat) : maskAddr a = a % 4096 := rfl

theorem maskAddr_of_lt (a : Nat) (h : a < 4096) : maskAddr a = a := Nat.mod_eq_of_lt h

/-- Two masked offsets from one base agree only for equal offsets within the address space. -/
theorem maskAddr_add_inj (base i j : Nat) (hi : i < 4096) (hj : j < 4096)
    (h : maskAddr (base + i) = maskAddr (base + j)) : i = j := by
  simp only [maskAddr_eq_mod] at h; omega

/-! ### The canonical form -/

theorem Memory.empty_wf : Memory.wf [] := by simp [Memory.wf]

/-- Every address an insertion lists was listed before or is the one written. -/
theorem Memory.mem_insert_addr (m : Memory) (a : Nat) (b : Byte) (c : Host.Cell)
    (h : c ∈ Memory.insert m a b) : c ∈ m ∨ c = (a, b) ∧ b ≠ Memory.unlisted a := by
  induction m with
  | nil =>
    simp only [Memory.insert] at h
    split at h <;> simp_all
  | cons d rest ih =>
    simp only [Memory.insert] at h
    split at h
    · split at h <;> simp_all
      grind
    · split at h
      · split at h <;> simp_all
        grind
      · simp only [List.mem_cons] at h ⊢
        grind

/-- An insertion keeps the canonical form. -/
theorem Memory.insert_wf (m : Memory) (a : Nat) (b : Byte) (ha : a < Config.memSize) (h : Memory.wf m) :
    Memory.wf (Memory.insert m a b) := by
  refine ⟨?_, fun c hc => ?_⟩
  · obtain ⟨hp, -⟩ := h
    induction m with
    | nil => simp only [Memory.insert]; split <;> simp
    | cons d rest ih =>
      obtain ⟨hd, hrest⟩ := List.pairwise_cons.mp hp
      simp only [Memory.insert]
      split
      · split
        · exact hrest
        · exact List.pairwise_cons.mpr ⟨fun c hc => by have := hd c hc; omega, hrest⟩
      · split
        · split
          · exact hp
          · exact List.pairwise_cons.mpr
              ⟨fun c hc => by rcases List.mem_cons.mp hc with rfl | hc <;> grind, hp⟩
        · refine List.pairwise_cons.mpr ⟨fun c hc => ?_, ih hrest⟩
          rcases Memory.mem_insert_addr rest a b c hc with hc | ⟨rfl, -⟩
          · exact hd c hc
          · simp only; omega
  · rcases Memory.mem_insert_addr m a b c hc with hc | ⟨rfl, hb⟩
    · exact h.2 c hc
    · exact ⟨ha, hb⟩

theorem Memory.write_wf (m : Memory) (a : Nat) (b : Byte) (h : Memory.wf m) : Memory.wf (Memory.write m a b) :=
  Memory.insert_wf m (maskAddr a) b (maskAddr_lt a) h

theorem Memory.writeBytes_wf (bs : List Byte) (m : Memory) (base : Nat) (h : Memory.wf m) :
    Memory.wf (Memory.writeBytes m base bs) := by
  induction bs generalizing m base with
  | nil => exact h
  | cons b rest ih => exact ih _ _ (Memory.write_wf m base b h)

theorem State.reset_mem_wf : Memory.wf State.reset.mem := Memory.empty_wf

/-! ### Reading after writing -/

/-- A canonical memory lists nothing for an address below its first entry. -/
theorem Memory.lookup_of_lt (m : Memory) (a : Nat) (h : ∀ c ∈ m, a < c.1) : Memory.lookup m a = Memory.unlisted a := by
  induction m with
  | nil => rfl
  | cons d rest ih =>
    have := h d (by simp)
    simp only [Memory.lookup]
    rw [if_neg (by omega)]
    exact ih fun c hc => h c (List.mem_cons_of_mem d hc)

/-- A read after an insertion: the byte written at its address, the old byte at every other. -/
theorem Memory.lookup_insert (m : Memory) (a a' : Nat) (b : Byte) (h : Memory.wf m) :
    Memory.lookup (Memory.insert m a b) a' = if a' = a then b else Memory.lookup m a' := by
  obtain ⟨hp, -⟩ := h
  induction m with
  | nil =>
    simp only [Memory.insert]
    split <;> simp only [Memory.lookup] <;> grind
  | cons d rest ih =>
    obtain ⟨hd, hrest⟩ := List.pairwise_cons.mp hp
    simp only [Memory.insert]
    split
    · have := Memory.lookup_of_lt rest a (fun c hc => by have := hd c hc; omega)
      split <;> simp only [Memory.lookup] <;> grind
    · split
      · have := Memory.lookup_of_lt rest a (fun c hc => by have := hd c hc; omega)
        split <;> simp only [Memory.lookup] <;> grind
      · have := ih hrest
        simp only [Memory.lookup]
        grind

/-- MemRead after MemWrite (20_memory.md R52, R53). -/
theorem Memory.read_write (m : Memory) (a a' : Nat) (b : Byte) (h : Memory.wf m) :
    Memory.read (Memory.write m a b) a' = if maskAddr a' = maskAddr a then b else Memory.read m a' :=
  Memory.lookup_insert m (maskAddr a) (maskAddr a') b h

/-- A block write leaves every byte outside its masked addresses alone. -/
theorem Memory.read_writeBytes_outside (bs : List Byte) (m : Memory) (base a : Nat) (h : Memory.wf m)
    (ha : ∀ k, k < bs.length → maskAddr a ≠ maskAddr (base + k)) :
    Memory.read (Memory.writeBytes m base bs) a = Memory.read m a := by
  induction bs generalizing m base with
  | nil => rfl
  | cons b rest ih =>
    have h0 := ha 0 (by simp)
    simp only [Memory.writeBytes]
    rw [ih _ _ (Memory.write_wf m base b h), Memory.read_write m base a b h, if_neg (by simpa using h0)]
    intro k hk
    have := ha (k + 1) (by simpa using hk)
    rwa [show base + 1 + k = base + (k + 1) by omega]

/-- A block write of at most the whole address space leaves its `k`-th byte at the `k`-th masked address. -/
theorem Memory.read_writeBytes_inside (bs : List Byte) (m : Memory) (base k : Nat) (h : Memory.wf m)
    (hlen : bs.length ≤ 4096) (hk : k < bs.length) :
    Memory.read (Memory.writeBytes m base bs) (base + k) = bs[k] := by
  induction bs generalizing m base k with
  | nil => simp at hk
  | cons b rest ih =>
    simp only [Memory.writeBytes]
    simp only [List.length_cons] at hlen hk
    cases k with
    | zero =>
      rw [Memory.read_writeBytes_outside rest _ _ _ (Memory.write_wf m base b h), Memory.read_write m _ _ b h]
      · simp
      · intro j hj hEq
        rw [show base + 1 + j = base + (j + 1) by omega] at hEq
        have := maskAddr_add_inj base 0 (j + 1) (by omega) (by omega) hEq
        omega
    | succ j =>
      rw [show base + (j + 1) = base + 1 + j by omega, ih _ _ _ (Memory.write_wf m base b h) (by omega) (by omega)]
      simp

@[simp] theorem Memory.readBytes_length (m : Memory) (base n : Nat) : (Memory.readBytes m base n).length = n := by
  induction n generalizing base with
  | zero => rfl
  | succ n ih => simp [Memory.readBytes, ih]

theorem Memory.readBytes_getElem (m : Memory) (base n k : Nat) (hk : k < (Memory.readBytes m base n).length) :
    (Memory.readBytes m base n)[k] = Memory.read m (base + k) := by
  induction n generalizing base k with
  | zero => simp [Memory.readBytes] at hk
  | succ n ih =>
    cases k with
    | zero => rfl
    | succ j =>
      simp only [Memory.readBytes, List.getElem_cons_succ]
      rw [ih]; congr 1; omega

/-- A read depends on its masked address only (20_memory.md R51). -/
theorem Memory.read_congr (m : Memory) (a b : Nat) (h : maskAddr a = maskAddr b) : Memory.read m a = Memory.read m b := by
  simp only [Memory.read, h]

end Sys2Proof.Machine
end

