-- ==== Sys2Proof/Laws/Ops.lean ====
section
/-! SUPPORT. One lemma for each shared operation over registers, the call stack, the keypad and the flags, saying once
everything it can do. -/

namespace Sys2Proof.Machine

/-! ### Registers -/

theorem VF_val : VF.val = 15 := rfl

/-- What register `r` holds depends on the register file only. -/
theorem State.readV_def (s : State) (r : Reg) : s.readV r = s.V[r.val] := rfl

@[simp] theorem State.readV_writeV (s : State) (x r : Reg) (v : Byte) :
    (s.writeV x v).readV r = if r = x then v else s.readV r := by
  simp only [State.readV, State.writeV_V, Vector.getElem_set, Fin.ext_iff]
  grind

/-- The result stands over the flag (42_alu.md R140). -/
@[simp] theorem State.readV_writeFlagThenResult (s : State) (x r : Reg) (flag result : Byte) :
    (s.writeFlagThenResult x flag result).readV r = if r = x then result else if r = VF then flag else s.readV r := by
  simp [State.writeFlagThenResult]

@[simp] theorem State.readV_finishV (s : State) (x r : Reg) (v : Byte) :
    (s.finishV x v).readV r = if r = x then v else s.readV r :=
  State.readV_writeV s x r v

@[simp] theorem State.readV_finishVFlag (s : State) (x r : Reg) (flag result : Byte) :
    (s.finishVFlag x flag result).readV r = if r = x then result else if r = VF then flag else s.readV r :=
  State.readV_writeFlagThenResult s x r flag result

@[simp] theorem State.readV_advance (s : State) (k : Word) (r : Reg) : (s.advance k).readV r = s.readV r := rfl

@[simp] theorem State.memRead_advance (s : State) (k : Word) (a : Nat) : (s.advance k).memRead a = s.memRead a := rfl

theorem State.readVUpTo_length (s : State) (x : Reg) : (s.readVUpTo x).length = x.val + 1 := by
  simp [State.readVUpTo]

theorem State.readVUpTo_getElem (s : State) (x k : Reg) (h : k.val < (s.readVUpTo x).length) :
    (s.readVUpTo x)[k.val] = s.readV k := by
  simp [State.readVUpTo, State.readV]

/-- Writing registers from `k` on changes the register file only. -/
theorem State.writeVFrom_eq (bytes : List Byte) (s : State) (k : Nat) :
    s.writeVFrom k bytes = { s with V := (s.writeVFrom k bytes).V } := by
  induction bytes generalizing s k with
  | nil => rfl
  | cons b rest ih => simp only [State.writeVFrom]; rw [ih]

/-- Register `r` after writing bytes to the registers from `k` on. -/
theorem State.readV_writeVFrom (bytes : List Byte) (s : State) (k : Nat) (r : Reg) :
    (s.writeVFrom k bytes).readV r =
      if h : k ≤ r.val ∧ r.val - k < bytes.length then bytes[r.val - k] else s.readV r := by
  induction bytes generalizing s k with
  | nil => simp [State.writeVFrom]
  | cons b rest ih =>
    simp only [State.writeVFrom, ih, List.length_cons]
    have hr : ({ s with V := s.V.setIfInBounds k b } : State).readV r = if r.val = k then b else s.readV r := by
      simp only [State.readV, Vector.getElem_setIfInBounds]
      grind
    rw [hr]
    rcases Nat.lt_trichotomy r.val k with h | h | h
    · grind
    · subst h; simp
    · have h1 : r.val - k = (r.val - (k + 1)) + 1 := by omega
      by_cases h2 : r.val - (k + 1) < rest.length
      · rw [dif_pos ⟨by omega, h2⟩, dif_pos ⟨by omega, by omega⟩]
        simp only [h1, List.getElem_cons_succ]
      · rw [dif_neg (by omega), dif_neg (by omega), if_neg (by omega)]

/-! ### The call stack -/

theorem State.push_eq_none (s : State) (ret : Word) : s.push ret = none ↔ s.sp.val = 16 := by
  have := s.sp.isLt
  simp only [State.push]; split <;> simp <;> omega

/-- A push with a free slot writes that slot and counts it; nothing else changes. -/
theorem State.push_eq_some (s t : State) (ret : Word) :
    s.push ret = some t ↔ ∃ h : s.sp.val < 16,
      t = { s with stack := s.stack.set s.sp.val ret, sp := ⟨s.sp.val + 1, by omega⟩ } := by
  simp only [State.push]; split <;> simp_all [eq_comm]

theorem State.pop_eq_none (s : State) : s.pop = none ↔ s.sp.val = 0 := by
  simp only [State.pop]; split <;> simp <;> omega

/-- A pop from a stack that holds something reads the top slot and counts it out; nothing else changes. -/
theorem State.pop_eq_some (s t : State) (target : Word) :
    s.pop = some (target, t) ↔ ∃ h : 0 < s.sp.val,
      target = s.stack[s.sp.val - 1]'(by omega) ∧ t = { s with sp := ⟨s.sp.val - 1, by omega⟩ } := by
  simp only [State.pop]; split <;> simp_all [eq_comm]

/-! ### The keypad -/

theorem leastPressed_eq_none (key : Keypad) : leastPressed key = none ↔ ∀ k : Reg, key[k.val] = false := by
  simp [leastPressed, List.find?_eq_none]

/-- The least pressed key: it is pressed and none below it is (45_keys_timers.md R203). -/
theorem leastPressed_eq_some (key : Keypad) (k : Reg) :
    leastPressed key = some k ↔ key[k.val] = true ∧ ∀ j : Reg, j < k → key[j.val] = false := by
  rw [leastPressed, List.find?_eq_some_iff_getElem]
  constructor
  · rintro ⟨hk, i, hi, hik, hj⟩
    simp only [List.getElem_finRange] at hik
    subst hik
    refine ⟨hk, fun j hjk => ?_⟩
    have := hj j.val hjk
    simpa using this
  · rintro ⟨hk, hj⟩
    refine ⟨hk, k.val, by simp, by simp, fun j hjk => ?_⟩
    have := hj ⟨j, by omega⟩ hjk
    simpa using this

theorem keyIndex_eq_none (vx : Byte) : keyIndex vx = none ↔ 15 < vx.toNat := by
  simp only [keyIndex]; split <;> simp <;> omega

theorem keyIndex_eq_some (vx : Byte) (k : Reg) : keyIndex vx = some k ↔ vx.toNat = k.val := by
  have := k.isLt
  simp only [keyIndex]; split
  · simp [Fin.ext_iff]
  · simp; omega

theorem keyByte_toNat (k : Reg) : (keyByte k).toNat = k.val := by
  have := k.isLt
  simp [keyByte]; omega

/-! ### Flags and operands as numbers -/

theorem flagOf_toNat (c : Bool) : (flagOf c).toNat = if c then 1 else 0 := by cases c <;> rfl

theorem carryFlag_toNat (vx vy : Byte) : (carryFlag vx vy).toNat = if 255 < vx.toNat + vy.toNat then 1 else 0 := by
  simp [carryFlag, flagOf_toNat]

theorem greaterFlag_toNat (a b : Byte) : (greaterFlag a b).toNat = if b.toNat < a.toNat then 1 else 0 := by
  simp [greaterFlag, flagOf_toNat]

theorem lowBitFlag_toNat (vx : Byte) : (lowBitFlag vx).toNat = vx.toNat % 2 := by
  simp [lowBitFlag, Nat.and_one_is_mod]

theorem highBitFlag_toNat (vx : Byte) : (highBitFlag vx).toNat = vx.toNat / 128 := by
  have := vx.isLt
  simp [highBitFlag, Nat.and_one_is_mod, Nat.shiftRight_eq_div_pow]; omega

theorem glyphAddr_toNat (vx : Byte) : (glyphAddr vx).toNat = 0x050 + 5 * vx.toNat := by
  have := vx.isLt
  simp [glyphAddr, Config.fontBase, Config.glyphBytes]; omega

theorem indexedTarget_toNat (v0 : Byte) (nnn : Word) :
    (indexedTarget v0 nnn).toNat = (v0.toNat + nnn.toNat) % 65536 := by
  have := v0.isLt
  simp [indexedTarget]

theorem indexPlus_toNat (index : Word) (vx : Byte) :
    (indexPlus index vx).toNat = (index.toNat + vx.toNat) % 65536 := by
  have := vx.isLt
  simp [indexPlus]

/-! ### Faults -/

/-- Everything raising a fault does (60_exceptions.md R222). -/
theorem State.raise_raisedFault (s : State) (kind : FaultKind) (opcode : Word) :
    (s.raise kind opcode).mode = .faulted { kind := kind, addr := s.pc, opcode := opcode } ∧
    { s.raise kind opcode with mode := s.mode } = s :=
  ⟨rfl, rfl⟩

end Sys2Proof.Machine
end

