-- ==== Sys2Proof/Laws/Display.lean ====
section
/-! SUPPORT. What drawing does: one lemma for a pixel, a sprite byte and a whole sprite. -/

namespace Sys2Proof.Machine

/-- A pixel after one pixel is toggled. -/
theorem Framebuffer.pixel_flip (fb : Framebuffer) (x y px py : Nat) :
    Framebuffer.pixel (Framebuffer.flip fb x y) px py =
      if px % 64 = x % 64 ∧ py % 32 = y % 32 then !Framebuffer.pixel fb px py else Framebuffer.pixel fb px py := by
  simp only [Framebuffer.pixel, Framebuffer.flip, Vector.getElem_set]
  by_cases hy : y % 32 = py % 32
  · simp only [hy, if_true, Vector.getElem_set]
    by_cases hx : x % 64 = px % 64
    · simp [hx]
    · simp [hx, Ne.symm hx]
  · simp [hy, Ne.symm hy]

/-- Two framebuffers with the same pixels are the same. -/
theorem Framebuffer.ext_pixel (f g : Framebuffer)
    (h : ∀ px py, px < 64 → py < 32 → Framebuffer.pixel f px py = Framebuffer.pixel g px py) : f = g := by
  refine Vector.ext fun y hy => Vector.ext fun x hx => ?_
  simpa only [Framebuffer.pixel, Nat.mod_eq_of_lt hx, Nat.mod_eq_of_lt hy] using h x y hx hy

/-- A pixel value that has been toggled exactly when `p` holds. -/
def Toggled (p : Prop) (old new : Bool) : Prop := new = true ↔ (old = true ↔ ¬p)

theorem Toggled.not {p : Prop} {old new : Bool} (h : Toggled p old new) (hp : p) : new = !old := by
  cases old <;> cases new <;> simp_all [Toggled]

theorem Toggled.same {p : Prop} {old new : Bool} (h : Toggled p old new) (hp : ¬p) : new = old := by
  cases old <;> cases new <;> simp_all [Toggled]

/-- Two toggles that never meet are one toggle. -/
theorem Toggled.trans {p q : Prop} {a b c : Bool} (h : Toggled p a b) (h' : Toggled q b c) (hpq : p → ¬q) :
    Toggled (p ∨ q) a c := by
  simp only [Toggled] at *; tauto

theorem Toggled.congr {p q : Prop} {a b : Bool} (h : Toggled p a b) (hpq : p ↔ q) : Toggled q a b := by
  simpa only [Toggled, ← hpq] using h

/-- What drawing one pixel does. -/
theorem drawPixel_spec (d : Drawing) (x y : Nat) :
    (∀ px py, Toggled (px % 64 = x % 64 ∧ py % 32 = y % 32) (Framebuffer.pixel d.1 px py)
      (Framebuffer.pixel (drawPixel d x y).1 px py)) ∧
    ((drawPixel d x y).2 = true ↔ d.2 = true ∨ Framebuffer.pixel d.1 x y = true) := by
  refine ⟨fun px py => ?_, by simp [drawPixel]⟩
  simp only [drawPixel, Framebuffer.pixel_flip, Toggled]
  split <;> simp_all

/-- Drawing the set columns among `cs` of one sprite byte, no two of which fall on one pixel: each toggles its pixel, and a
collision is noted exactly when one of those pixels was on. -/
theorem drawColumns_spec (row : Byte) (x0 y : Nat) (cs : List Nat)
    (hcs : cs.Pairwise (fun a b => (x0 + a) % 64 ≠ (x0 + b) % 64)) (d e : Drawing)
    (he : e = cs.foldl (fun acc c => if row.getLsbD (7 - c) then drawPixel acc (x0 + c) y else acc) d) :
    (∀ px py, Toggled (∃ c ∈ cs, row.getLsbD (7 - c) = true ∧ px % 64 = (x0 + c) % 64 ∧ py % 32 = y % 32)
      (Framebuffer.pixel d.1 px py) (Framebuffer.pixel e.1 px py)) ∧
    (e.2 = true ↔ d.2 = true ∨ ∃ c ∈ cs, row.getLsbD (7 - c) = true ∧ Framebuffer.pixel d.1 (x0 + c) y = true) := by
  induction cs generalizing d with
  | nil => subst he; simp [Toggled]
  | cons c rest ih =>
    obtain ⟨hc, hrest⟩ := List.pairwise_cons.mp hcs
    simp only [List.foldl_cons] at he
    simp only [List.mem_cons, or_and_right, exists_or, exists_eq_left]
    by_cases hb : row.getLsbD (7 - c) = true
    · rw [if_pos hb] at he
      obtain ⟨h1, h2⟩ := ih hrest _ he
      obtain ⟨p1, p2⟩ := drawPixel_spec d (x0 + c) y
      refine ⟨fun px py => ((p1 px py).trans (h1 px py) ?_).congr (by simp only [hb, true_and]), ?_⟩
      · rintro ⟨hx, -⟩ ⟨k, hk, -, hkx, -⟩
        exact hc k hk (hx.symm.trans hkx)
      · rw [h2, p2, or_assoc]
        simp only [hb, true_and]
        refine or_congr_right (or_congr_right (exists_congr fun k => and_congr_right fun hk => and_congr_right fun _ => ?_))
        rw [(p1 (x0 + k) y).same fun h => hc k hk h.1.symm]
    · rw [if_neg hb] at he
      simpa only [hb, Bool.false_eq_true, false_and, false_or] using ih hrest _ he

/-- What drawing one sprite byte does. -/
theorem drawRow_spec (d : Drawing) (x0 y : Nat) (row : Byte) :
    (∀ px py, Toggled (∃ c, c < 8 ∧ row.getLsbD (7 - c) = true ∧ px % 64 = (x0 + c) % 64 ∧ py % 32 = y % 32)
      (Framebuffer.pixel d.1 px py) (Framebuffer.pixel (drawRow d x0 y row).1 px py)) ∧
    ((drawRow d x0 y row).2 = true ↔
      d.2 = true ∨ ∃ c, c < 8 ∧ row.getLsbD (7 - c) = true ∧ Framebuffer.pixel d.1 (x0 + c) y = true) := by
  have h := drawColumns_spec row x0 y (List.range 8) ?_ d (drawRow d x0 y row) rfl
  · simpa only [List.mem_range] using h
  · refine List.Pairwise.imp_of_mem ?_ List.nodup_range
    intro a b ha hb hab
    simp only [List.mem_range] at ha hb
    omega

/-- What drawing at most 32 sprite bytes does: each set bit toggles its pixel, wrapped at the edges, and a collision is
noted exactly when one of those pixels was on. -/
theorem drawRows_spec (rows : List Byte) (hlen : rows.length ≤ 32) (d : Drawing) (x0 y0 : Nat) :
    (∀ px py, Toggled (∃ r c, r < rows.length ∧ c < 8 ∧ (rows.getD r 0).getLsbD (7 - c) = true ∧
        px % 64 = (x0 + c) % 64 ∧ py % 32 = (y0 + r) % 32)
      (Framebuffer.pixel d.1 px py) (Framebuffer.pixel (drawRows d x0 y0 rows).1 px py)) ∧
    ((drawRows d x0 y0 rows).2 = true ↔
      d.2 = true ∨ ∃ r c, r < rows.length ∧ c < 8 ∧ (rows.getD r 0).getLsbD (7 - c) = true ∧
        Framebuffer.pixel d.1 (x0 + c) (y0 + r) = true) := by
  induction rows generalizing d y0 with
  | nil => simp [drawRows, Toggled]
  | cons row rest ih =>
    simp only [List.length_cons] at hlen
    obtain ⟨h1, h2⟩ := ih (by omega) (drawRow d x0 y0 row) (y0 + 1)
    obtain ⟨p1, p2⟩ := drawRow_spec d x0 y0 row
    have split_rows : ∀ P : Nat → Nat → Prop,
        ((∃ c, c < 8 ∧ row.getLsbD (7 - c) = true ∧ P 0 c) ∨
          ∃ r c, r < rest.length ∧ c < 8 ∧ (rest.getD r 0).getLsbD (7 - c) = true ∧ P (r + 1) c) ↔
        ∃ r c, r < (row :: rest).length ∧ c < 8 ∧ ((row :: rest).getD r 0).getLsbD (7 - c) = true ∧ P r c := by
      intro P
      constructor
      · rintro (⟨c, h⟩ | ⟨r, c, hr, h⟩)
        · exact ⟨0, c, by simp, h⟩
        · exact ⟨r + 1, c, by simpa using hr, h⟩
      · rintro ⟨r, c, hr, h⟩
        cases r with
        | zero => exact .inl ⟨c, h⟩
        | succ r => exact .inr ⟨r, c, by simpa using hr, h⟩
    simp only [show ∀ r, y0 + 1 + r = y0 + (r + 1) from fun r => by omega] at h1 h2
    refine ⟨fun px py => ((p1 px py).trans (h1 px py) ?_).congr
      (split_rows fun r c => px % 64 = (x0 + c) % 64 ∧ py % 32 = (y0 + r) % 32), ?_⟩
    · rintro ⟨c, -, -, -, hy⟩ ⟨r, c', hr, -, -, -, hy'⟩
      omega
    · rw [← split_rows fun r c => Framebuffer.pixel d.1 (x0 + c) (y0 + r) = true]
      simp only [drawRows]
      rw [h2, p2, or_assoc]
      refine or_congr_right (or_congr_right (exists_congr fun r => exists_congr fun c => and_congr_right fun hr =>
        and_congr_right fun _ => and_congr_right fun _ => ?_))
      rw [(p1 (x0 + c) (y0 + (r + 1))).same]
      rintro ⟨c', -, -, -, hy⟩
      omega

end Sys2Proof.Machine
end

