-- ==== Sys2Proof/Laws/PerInstr.lean ====
section
/-! SUPPORT. Facts about every instruction as syntax, one lemma for each constructor. -/

namespace Sys2Proof.Laws.FixedBits

/-- The word of an instruction carries the fixed bits of its row of the opcode map, whatever its operands
(30_encoding.md R85, R86). -/
def Statement (i : Instr) : Prop := i.row.matchesWord (encode i) = true

/-- A row with one fixed digit: only the family is fixed. -/
theorem of_F000 {w value : Word} (pattern : String) (h : w.toNat / 4096 * 4096 = value.toNat) :
    OpcodeRow.matchesWord ⟨pattern, value, 0xF000⟩ w = true :=
  decide_eq_true (BitVec.eq_of_toNat_eq ((and_F000_toNat w).trans h))

/-- A row that fixes the family and the last digit. -/
theorem of_F00F {w value : Word} (pattern : String) (h : w.toNat / 4096 * 4096 + w.toNat % 16 = value.toNat) :
    OpcodeRow.matchesWord ⟨pattern, value, 0xF00F⟩ w = true :=
  decide_eq_true (BitVec.eq_of_toNat_eq ((and_F00F_toNat w).trans h))

/-- A row that fixes the family and the low byte. -/
theorem of_F0FF {w value : Word} (pattern : String) (h : w.toNat / 4096 * 4096 + w.toNat % 256 = value.toNat) :
    OpcodeRow.matchesWord ⟨pattern, value, 0xF0FF⟩ w = true :=
  decide_eq_true (BitVec.eq_of_toNat_eq ((and_F0FF_toNat w).trans h))

/-- The fixed bits of a row laid out as `op nnn`. -/
theorem packNNN_F000 (pattern : String) (op : BitVec 4) (value nnn : Word) (h : op.toNat * 4096 = value.toNat) :
    OpcodeRow.matchesWord ⟨pattern, value, 0xF000⟩ (packNNN op nnn) = true :=
  of_F000 pattern (by rw [packNNN_toNat, ← h]; clear h; omega)

/-- The fixed bits of a row laid out as `op x kk`. -/
theorem packXKK_F000 (pattern : String) (op : BitVec 4) (value : Word) (x : Reg) (kk : Byte)
    (h : op.toNat * 4096 = value.toNat) : OpcodeRow.matchesWord ⟨pattern, value, 0xF000⟩ (packXKK op x kk) = true :=
  of_F000 pattern (by have := x.isLt; have := kk.isLt; rw [packXKK_toNat, ← h]; clear h; omega)

/-- The fixed bits of a row laid out as `op x y n` whose last digit is an operand. -/
theorem packXYN_F000 (pattern : String) (op : BitVec 4) (value : Word) (x y : Reg) (n : BitVec 4)
    (h : op.toNat * 4096 = value.toNat) : OpcodeRow.matchesWord ⟨pattern, value, 0xF000⟩ (packXYN op x y n) = true :=
  of_F000 pattern (by have := x.isLt; have := y.isLt; have := n.isLt; rw [packXYN_toNat, ← h]; clear h; omega)

/-- The fixed bits of a row laid out as `op x y n` whose last digit is fixed. -/
theorem packXYN_F00F (pattern : String) (op : BitVec 4) (value : Word) (x y : Reg) (n : BitVec 4)
    (h : op.toNat * 4096 + n.toNat = value.toNat) :
    OpcodeRow.matchesWord ⟨pattern, value, 0xF00F⟩ (packXYN op x y n) = true :=
  of_F00F pattern (by have := x.isLt; have := y.isLt; have := n.isLt; rw [packXYN_toNat, ← h]; clear h; omega)

/-- The fixed bits of a row laid out as `op x kk` whose low byte is fixed. -/
theorem packXKK_F0FF (pattern : String) (op : BitVec 4) (value : Word) (x : Reg) (kk : Byte)
    (h : op.toNat * 4096 + kk.toNat = value.toNat) :
    OpcodeRow.matchesWord ⟨pattern, value, 0xF0FF⟩ (packXKK op x kk) = true :=
  of_F0FF pattern (by have := x.isLt; have := kk.isLt; rw [packXKK_toNat, ← h]; clear h; omega)

theorem cls : Statement .cls := by unfold Statement; decide
theorem ret : Statement .ret := by unfold Statement; decide
theorem jp (nnn : Word) : Statement (.jp nnn) := packNNN_F000 _ _ _ _ rfl
theorem call (nnn : Word) : Statement (.call nnn) := packNNN_F000 _ _ _ _ rfl
theorem seImm (x : Reg) (kk : Byte) : Statement (.seImm x kk) := packXKK_F000 _ _ _ _ _ rfl
theorem sneImm (x : Reg) (kk : Byte) : Statement (.sneImm x kk) := packXKK_F000 _ _ _ _ _ rfl
theorem seReg (x y : Reg) : Statement (.seReg x y) := packXYN_F00F _ _ _ _ _ _ rfl
theorem ldImm (x : Reg) (kk : Byte) : Statement (.ldImm x kk) := packXKK_F000 _ _ _ _ _ rfl
theorem addImm (x : Reg) (kk : Byte) : Statement (.addImm x kk) := packXKK_F000 _ _ _ _ _ rfl
theorem ldReg (x y : Reg) : Statement (.ldReg x y) := packXYN_F00F _ _ _ _ _ _ rfl
theorem orReg (x y : Reg) : Statement (.orReg x y) := packXYN_F00F _ _ _ _ _ _ rfl
theorem andReg (x y : Reg) : Statement (.andReg x y) := packXYN_F00F _ _ _ _ _ _ rfl
theorem xorReg (x y : Reg) : Statement (.xorReg x y) := packXYN_F00F _ _ _ _ _ _ rfl
theorem addReg (x y : Reg) : Statement (.addReg x y) := packXYN_F00F _ _ _ _ _ _ rfl
theorem sub (x y : Reg) : Statement (.sub x y) := packXYN_F00F _ _ _ _ _ _ rfl
theorem shr (x y : Reg) : Statement (.shr x y) := packXYN_F00F _ _ _ _ _ _ rfl
theorem subn (x y : Reg) : Statement (.subn x y) := packXYN_F00F _ _ _ _ _ _ rfl
theorem shl (x y : Reg) : Statement (.shl x y) := packXYN_F00F _ _ _ _ _ _ rfl
theorem sneReg (x y : Reg) : Statement (.sneReg x y) := packXYN_F00F _ _ _ _ _ _ rfl
theorem ldI (nnn : Word) : Statement (.ldI nnn) := packNNN_F000 _ _ _ _ rfl
theorem jpV0 (nnn : Word) : Statement (.jpV0 nnn) := packNNN_F000 _ _ _ _ rfl
theorem rnd (x : Reg) (kk : Byte) : Statement (.rnd x kk) := packXKK_F000 _ _ _ _ _ rfl
theorem drw (x y : Reg) (n : Nat) : Statement (.drw x y n) := packXYN_F000 _ _ _ _ _ _ rfl
theorem skp (x : Reg) : Statement (.skp x) := packXKK_F0FF _ _ _ _ _ rfl
theorem sknp (x : Reg) : Statement (.sknp x) := packXKK_F0FF _ _ _ _ _ rfl
theorem ldFromDT (x : Reg) : Statement (.ldFromDT x) := packXKK_F0FF _ _ _ _ _ rfl
theorem ldKey (x : Reg) : Statement (.ldKey x) := packXKK_F0FF _ _ _ _ _ rfl
theorem ldDT (x : Reg) : Statement (.ldDT x) := packXKK_F0FF _ _ _ _ _ rfl
theorem ldST (x : Reg) : Statement (.ldST x) := packXKK_F0FF _ _ _ _ _ rfl
theorem addI (x : Reg) : Statement (.addI x) := packXKK_F0FF _ _ _ _ _ rfl
theorem ldF (x : Reg) : Statement (.ldF x) := packXKK_F0FF _ _ _ _ _ rfl
theorem ldB (x : Reg) : Statement (.ldB x) := packXKK_F0FF _ _ _ _ _ rfl
theorem storeRegs (x : Reg) : Statement (.storeRegs x) := packXKK_F0FF _ _ _ _ _ rfl
theorem loadRegs (x : Reg) : Statement (.loadRegs x) := packXKK_F0FF _ _ _ _ _ rfl

end Sys2Proof.Laws.FixedBits
end

