-- ==== Sys2Proof/Tests/Slice0.lean ====
section
/-! SUPPORT. The model's own tests: ill-formed terms, decodings, one step of each instruction, and for every obligation
with hypotheses a witness that meets them. Expected results are the spec's: the opcode map (30_encoding.md R86), the vectors
of 95_test_vectors.md (each test names its section), and hand calculation from the rule named. -/

namespace Sys2Proof.Tests

open Sys2Proof.Machine

/-! ### Helpers -/

/-- The reset state with some registers set. -/
def regs (l : List (Reg × Byte)) : State := l.foldl (fun s p => s.writeV p.1 p.2) State.reset

/-- The reset keypad with some keys pressed. -/
def keys (l : List Reg) : Keypad := l.foldl (fun key k => key.set k.val true) State.reset.key

/-- The state `s` with bytes stored from address `a` on. -/
def bytesAt (s : State) (a : Nat) (bs : List Byte) : State := s.memWriteBytes a bs

/-- One step that fetches the word `w` in state `s` ends in a state with property `p`. -/
def after (s : State) (w : Nat) (p : State → Bool) : Bool :=
  match step (s.withFetchWord 16 w) with
  | .next t => p t
  | .fault _ => false
  | .refused _ => false

/-- The step ends with these registers. -/
def endsWith (s : State) (w : Nat) (l : List (Reg × Byte)) : Bool :=
  after s w (fun t => l.all (fun p => t.readV p.1 == p.2) && t.pc == s.pc + 2)

/-- The step ends with this program counter, and not faulted. -/
def goesTo (s : State) (w : Nat) (target : Word) : Bool := after s w (fun t => t.pc == target && t.mode == .running)

/-- The step raises this fault, with `pc` where it was. -/
def raises (s : State) (w : Nat) (kind : FaultKind) : Bool :=
  after s w (fun t => t.pc == s.pc && t.mode == .faulted { kind := kind, addr := s.pc, opcode := BitVec.ofNat 16 w })

/-- The columns of the pixels that are on in row `y`. -/
def litColumns (s : State) (y : Nat) : List Nat := (List.range 64).filter (fun c => Framebuffer.pixel s.fb c y)

/-! ### Well-formedness: what the checks refuse (30_encoding.md R81) -/

theorem test_illFormed_jp : (Instr.jp 0x1000).wellFormed = false := by decide
theorem test_illFormed_call : (Instr.call 0x1000).wellFormed = false := by decide
theorem test_illFormed_ldI : (Instr.ldI 0x1000).wellFormed = false := by decide
theorem test_illFormed_jpV0 : (Instr.jpV0 0xFFFF).wellFormed = false := by decide
theorem test_illFormed_drw : (Instr.drw 0 0 16).wellFormed = false := by decide

/-! ### Decoding: a word for every constructor, written out bit by bit from the opcode map (R86) -/

theorem test_decode_control :
    decode 0b0000000011100000 = .ok .cls ∧ decode 0b0000000011101110 = .ok .ret ∧
    decode 0b0001101010111100 = .ok (.jp 0xABC) ∧ decode 0b0010001100000001 = .ok (.call 0x301) ∧
    decode 0b1011111111111110 = .ok (.jpV0 0xFFE) := by decide

theorem test_decode_skips :
    decode 0b0011001101000010 = .ok (.seImm 3 0x42) ∧ decode 0b0100101000000001 = .ok (.sneImm 10 1) ∧
    decode 0b0101000100100000 = .ok (.seReg 1 2) ∧ decode 0b1001111001110000 = .ok (.sneReg 14 7) := by decide

theorem test_decode_immediates :
    decode 0b0110101001111111 = .ok (.ldImm 10 0x7F) ∧ decode 0b0111001000000001 = .ok (.addImm 2 1) ∧
    decode 0b1010000100100011 = .ok (.ldI 0x123) ∧ decode 0b1100000100001111 = .ok (.rnd 1 0x0F) := by decide

theorem test_decode_family8 :
    decode 0b1000000100100000 = .ok (.ldReg 1 2) ∧ decode 0b1000000100100001 = .ok (.orReg 1 2) ∧
    decode 0b1000000100100010 = .ok (.andReg 1 2) ∧ decode 0b1000000100100011 = .ok (.xorReg 1 2) ∧
    decode 0b1000000100100100 = .ok (.addReg 1 2) ∧ decode 0b1000000100100101 = .ok (.sub 1 2) ∧
    decode 0b1000000100100110 = .ok (.shr 1 2) ∧ decode 0b1000000100100111 = .ok (.subn 1 2) ∧
    decode 0b1000111111111110 = .ok (.shl 15 15) := by decide

theorem test_decode_display_keys :
    decode 0b1101000100101111 = .ok (.drw 1 2 15) ∧ decode 0b1110010110011110 = .ok (.skp 5) ∧
    decode 0b1110010110100001 = .ok (.sknp 5) ∧ decode 0b1111001000001010 = .ok (.ldKey 2) := by decide

theorem test_decode_familyF :
    decode 0b1111001100000111 = .ok (.ldFromDT 3) ∧ decode 0b1111000100010101 = .ok (.ldDT 1) ∧
    decode 0b1111000100011000 = .ok (.ldST 1) ∧ decode 0b1111000000011110 = .ok (.addI 0) ∧
    decode 0b1111000000101001 = .ok (.ldF 0) ∧ decode 0b1111000000110011 = .ok (.ldB 0) ∧
    decode 0b1111001001010101 = .ok (.storeRegs 2) ∧ decode 0b1111000101100101 = .ok (.loadRegs 1) := by decide

/-- 95_test_vectors.md 2.1: the words that are gaps. -/
theorem test_decode_gaps :
    decode 0x0000 = .error .family0 ∧ decode 0x01E0 = .error .family0 ∧ decode 0x00EF = .error .family0 ∧
    decode 0x0123 = .error .family0 ∧ decode 0x5121 = .error .family5 ∧ decode 0x8008 = .error .family8 ∧
    decode 0x800F = .error .family8 ∧ decode 0x912F = .error .family9 ∧ decode 0xE19F = .error .familyE ∧
    decode 0xF00B = .error .familyF ∧ decode 0xFFFF = .error .familyF := by decide

/-- 20_memory.md R56: the byte at the lower address is the high one, and the rest of the bytes is left over. -/
theorem test_decodeBytes_order : decodeBytes [0x1A, 0xBC, 0x77] = .ok (.jp 0xABC, [0x77]) := by decide

theorem test_decodeBytes_truncated : decodeBytes [0x1A] = .error .truncated := by decide

theorem test_decodeTableWord : decodeTableWord 16 0xD12F = some (.drw 1 2 15) ∧ decodeTableWord 16 0x8008 = none := by
  decide

/-- The text of program P3's and P4's instructions (95_test_vectors.md 3). -/
theorem test_text :
    (Instr.ldI 0x300).text = "LD I, 0x300" ∧ (Instr.ldImm 0 0xFE).text = "LD V0, 0xFE" ∧
    (Instr.loadRegs 2).text = "LD V2, [I]" ∧ (Instr.drw 1 2 1).text = "DRW V1, V2, 0x1" := by decide

/-! ### Control flow (95_test_vectors.md 2.2) -/

theorem test_jp : goesTo State.reset 0x1ABC 0x0ABC = true := by decide

theorem test_call_pushes : after { State.reset with pc := 0xFFE } 0x2300
    (fun t => t.pc == 0x300 && t.stack[0] == 0x1000 && t.sp == 1) = true := by decide

theorem test_call_full : raises { State.reset with sp := 16 } 0x2400 .stackOverflow = true := by decide

theorem test_ret_pops : after { State.reset with pc := 0x300, sp := 1, stack := State.reset.stack.set 0 0x206 } 0x00EE
    (fun t => t.pc == 0x206 && t.stack[0] == 0x206 && t.sp == 0) = true := by decide

theorem test_ret_empty : raises State.reset 0x00EE .stackUnderflow = true := by decide

theorem test_seImm_taken : goesTo (regs [(3, 0x42)]) 0x3342 0x204 = true := by decide
theorem test_seImm_not_taken : goesTo (regs [(3, 0x42)]) 0x3343 0x202 = true := by decide
theorem test_sneImm_not_taken : goesTo (regs [(3, 0x42)]) 0x4342 0x202 = true := by decide
theorem test_sneImm_taken : goesTo (regs [(3, 0x42)]) 0x4300 0x204 = true := by decide
theorem test_seReg_values : goesTo (regs [(1, 7), (2, 7)]) 0x5120 0x204 = true := by decide
theorem test_seReg_not_taken : goesTo (regs [(1, 7), (2, 8)]) 0x5120 0x202 = true := by decide
theorem test_sneReg_taken : goesTo (regs [(1, 7), (2, 8)]) 0x9120 0x204 = true := by decide
theorem test_sneReg_same_register : goesTo (regs [(1, 7)]) 0x9110 0x202 = true := by decide
theorem test_jpV0_unmasked : goesTo (regs [(0, 0xFF)]) 0xBFFF 0x10FE = true := by decide

/-- The word at 0xFFF wraps to address 0. -/
theorem test_fetch_wraps : goesTo { State.reset with pc := 0xFFF } 0x1234 0x234 = true := by decide

/-! ### Register loads and the ALU (95_test_vectors.md 2.3) -/

theorem test_ldImm : endsWith (regs [(15, 0x55)]) 0x6A7F [(10, 0x7F), (15, 0x55)] = true := by decide
theorem test_addImm_no_flag : endsWith (regs [(2, 0xFF), (15, 0x55)]) 0x7201 [(2, 0), (15, 0x55)] = true := by decide
theorem test_addImm_vf : endsWith (regs [(15, 0x10)]) 0x7F05 [(15, 0x15)] = true := by decide
theorem test_ldReg : endsWith (regs [(1, 0x3C)]) 0x8010 [(0, 0x3C), (1, 0x3C)] = true := by decide
theorem test_or_keeps_vf : endsWith (regs [(0, 0xF0), (1, 0x0F), (15, 0x77)]) 0x8011 [(0, 0xFF), (15, 0x77)] = true := by
  decide
theorem test_and : endsWith (regs [(0, 0xF0), (1, 0x3C)]) 0x8012 [(0, 0x30), (1, 0x3C)] = true := by decide
theorem test_xor : endsWith (regs [(0, 0xF0), (1, 0x3C)]) 0x8013 [(0, 0xCC), (1, 0x3C)] = true := by decide
theorem test_add_sum_255 : endsWith (regs [(0, 0xFE), (1, 1), (15, 9)]) 0x8014 [(0, 0xFF), (15, 0)] = true := by decide
theorem test_add_result_wins : endsWith (regs [(15, 0xFF), (1, 1)]) 0x8F14 [(15, 0)] = true := by decide
theorem test_sub_borrows : endsWith (regs [(0, 3), (1, 5), (15, 9)]) 0x8015 [(0, 0xFE), (15, 0)] = true := by decide
theorem test_sub_equal : endsWith (regs [(0, 7), (1, 7), (15, 9)]) 0x8015 [(0, 0), (15, 0)] = true := by decide
theorem test_shr : endsWith (regs [(0, 5), (1, 0xF0)]) 0x8016 [(0, 2), (1, 0xF0), (15, 1)] = true := by decide
theorem test_shr_result_wins : endsWith (regs [(15, 3)]) 0x8FF6 [(15, 1)] = true := by decide
theorem test_subn : endsWith (regs [(0, 3), (1, 5)]) 0x8017 [(0, 2), (1, 5), (15, 1)] = true := by decide
theorem test_subn_borrows : endsWith (regs [(0, 5), (1, 3), (15, 9)]) 0x8017 [(0, 0xFE), (15, 0)] = true := by decide
theorem test_shl : endsWith (regs [(0, 0x81), (1, 0xF0)]) 0x801E [(0, 2), (1, 0xF0), (15, 1)] = true := by decide
theorem test_shl_no_flag : endsWith (regs [(0, 0x40), (15, 9)]) 0x801E [(0, 0x80), (15, 0)] = true := by decide

/-- With kk = 0 the result is 0 for every draw (S10): a byte of zeros absorbs the free value. -/
theorem test_rnd_zero_mask : ∃ t, exec (.rnd 3 0) (regs [(3, 9)]) = .next t ∧ t.readV 3 = 0 ∧ t.draws = 1 :=
  ⟨_, rfl, by simp [State.rndWith], rfl⟩

/-! ### The index register and memory (95_test_vectors.md 2.4) -/

theorem test_ldI : after State.reset 0xA123 (fun t => t.I == 0x123) = true := by decide
theorem test_addI_unmasked : after ((regs [(0, 2), (15, 0x33)]).writeI 0x0FFF) 0xF01E
    (fun t => t.I == 0x1001 && t.readV 15 == 0x33) = true := by decide
theorem test_addI_wraps : after ((regs [(0, 1)]).writeI 0xFFFF) 0xF01E (fun t => t.I == 0) = true := by decide
theorem test_ldF_digit : after (regs [(0, 0x0A)]) 0xF029 (fun t => t.I == 0x082) = true := by decide
theorem test_ldF_unmasked : after (regs [(0, 0xFF)]) 0xF029 (fun t => t.I == 0x54B) = true := by decide
theorem test_ldB : after ((regs [(0, 107)]).writeI 0x300) 0xF033
    (fun t => t.memReadBytes 0x300 3 == [1, 0, 7] && t.I == 0x300) = true := by decide
theorem test_ldB_wraps : after ((regs [(0, 123)]).writeI 0xFFF) 0xF033
    (fun t => t.memRead 0xFFF == 1 && t.memRead 0 == 2 && t.memRead 1 == 3) = true := by decide
theorem test_storeRegs_wraps : after ((regs [(0, 0x0A), (1, 0x0B), (2, 0x0C), (3, 0x0D), (4, 9)]).writeI 0xFFE) 0xF355
    (fun t => t.memReadBytes 0xFFE 5 == [0x0A, 0x0B, 0x0C, 0x0D, 0] && t.I == 0xFFE) = true := by decide
theorem test_loadRegs : after (bytesAt ((regs [(3, 0x77)]).writeI 0x1300) 0x300 [1, 2, 3, 4]) 0xF265
    (fun t => t.readVUpTo 3 == [1, 2, 3, 0x77] && t.I == 0x1300) = true := by decide

/-! ### The framebuffer (95_test_vectors.md 2.5) -/

theorem test_cls : after { State.reset with fb := Framebuffer.flip State.reset.fb 63 31 } 0x00E0
    (fun t => litColumns t 31 == [] && t.pc == 0x202) = true := by decide

/-- The sprite byte 0xC3 at column 62, row 32: it wraps to columns 62, 63, 4 and 5 of row 0. -/
theorem test_drw_wraps : after (bytesAt ((regs [(1, 62), (2, 32), (15, 9)]).writeI 0x400) 0x400 [0xC3]) 0xD121
    (fun t => litColumns t 0 == [4, 5, 62, 63] && t.readV 15 == 0) = true := by
  decide

/-- The coordinate is the old VF, the pixel (10, 0) was on. -/
theorem test_drw_collides : after (bytesAt { ((regs [(15, 10)]).writeI 0x300) with
      fb := Framebuffer.flip State.reset.fb 10 0 } 0x300 [0x80]) 0xDF11
    (fun t => litColumns t 0 == [] && t.readV 15 == 1) = true := by decide

/-! ### The keypad and the timers (95_test_vectors.md 2.6) -/

theorem test_skp_pressed : goesTo ((regs [(5, 10)]).setKeys (keys [10])) 0xE59E 0x204 = true := by decide
theorem test_skp_range : raises (regs [(5, 0x10)]) 0xE59E .keyIndexRange = true := by decide
theorem test_sknp_released : goesTo ((regs [(5, 10)]).setKeys (keys [11])) 0xE5A1 0x204 = true := by decide
theorem test_sknp_pressed : goesTo ((regs [(5, 10)]).setKeys (keys [10])) 0xE5A1 0x202 = true := by decide
theorem test_ldFromDT : endsWith { State.reset with DT := 30, ST := 7 } 0xF307 [(3, 30)] = true := by decide
theorem test_ldDT : after (regs [(1, 30)]) 0xF115 (fun t => t.DT == 30 && t.ST == 0) = true := by decide
theorem test_ldST : after (regs [(1, 5)]) 0xF118 (fun t => t.ST == 5 && t.DT == 0) = true := by decide
theorem test_ldKey_waits : after State.reset 0xF20A (fun t => t.mode == .awaitKey 2 && t.pc == 0x200) = true := by decide
theorem test_ldKey_completes : endsWith (State.reset.setKeys (keys [15])) 0xF20A [(2, 0x0F)] = true := by decide

/-- A waiting step with keys 3 and 7 pressed takes key 3. -/
theorem test_await_takes_least :
    (({ State.reset with pc := 0x210 }.setKeys (keys [7, 3])).awaitStep 2).readV 2 = 3 ∧
    (({ State.reset with pc := 0x210 }.setKeys (keys [7, 3])).awaitStep 2).pc = 0x212 := by decide

/-! ### Host operations (95_test_vectors.md 2.6 and 2.7) -/

theorem test_tick : { State.reset with DT := 1, ST := 2 }.tick = { State.reset with DT := 0, ST := 1 } := by rfl

/-- S9 and P1: the loaded program's first instruction. -/
theorem test_load_and_step : (match State.reset.load [0x60, 0x05, 0x70, 0x03] with
    | .ok t => t.fetchWord == 0x6005 && t.memRead 0x203 == 0x03
    | .error _ => false) = true := by decide

theorem test_fault_code : ({ State.reset with sp := 16 }.raise .stackOverflow 0x2400).readFaultCode = 2 := by decide

/-! ### Witnesses: for every obligation with hypotheses, states and operands that meet them all

An obligation whose clauses have hypotheses of their own has a witness for each clause, at a boundary of its range. -/

/-- Every use of `DecodesAs mask value` speaks of a word that exists: the row's own value. -/
theorem witness_DecodesAs : ∀ r ∈ opcodeMap, r.value &&& r.mask = r.value := by decide

theorem witness_DecodeOfEncodeIsTheInstruction :
    (Instr.drw 15 15 15).wellFormed = true ∧ (Instr.jp 0xFFF).wellFormed = true ∧ Instr.cls.wellFormed = true := by decide

theorem witness_EncodeOfDecodeIsTheWord :
    decode 0xBFFF = .ok (.jpV0 0xFFF) ∧ decode 0x8FFE = .ok (.shl 15 15) ∧ decode 0x00E0 = .ok .cls := by decide

theorem witness_DecodePicksTheOneMatchingRow :
    decode 0x8FFE = .ok (.shl 15 15) ∧ (Instr.row (.shl 0 0)) ∈ opcodeMap ∧
    (Instr.row (.shl 0 0)).matchesWord 0x8FFE = true ∧ (∀ r ∈ opcodeMap, r.matchesWord 0x8FFF = false) := by decide

/-- The first and the last word of family 0's gap set, and its two holes. -/
theorem witness_DecodeGapsAreTheSixSets :
    decode 0x0000 = .error .family0 ∧ decode 0x0FFF = .error .family0 ∧ decode 0x5001 = .error .family5 ∧
    decode 0x8FFF = .error .family8 ∧ decode 0x9FFF = .error .family9 ∧ decode 0xE000 = .error .familyE ∧
    decode 0xFFFF = .error .familyF ∧ decode 0x00EE = .ok .ret := by decide

theorem witness_StepRunsTheDecodedInstruction :
    (State.reset.withWordAtPc 0x1ABC).mode = .running ∧
    decode (State.reset.withWordAtPc 0x1ABC).fetchWord = .ok (.jp 0xABC) ∧
    State.reset.mode = .running ∧ decode State.reset.fetchWord = .error .family0 := by decide

theorem witness_PlacedInstructionRunsNext :
    Memory.wf State.reset.mem ∧ (Instr.drw 15 15 15).wellFormed = true := by decide

/-- A running step that completes, and one that faults for each of the four conditions. -/
theorem witness_StepFaultsExactlyWhen :
    (∃ s t : State, s.mode = .running ∧ step s = .next t ∧ t.mode = .running) ∧
    (∃ s t : State, s.mode = .running ∧ step s = .next t ∧ t.mode = .faulted ⟨.decodeGap, 0x200, 0x0000⟩) ∧
    (∃ s t : State, s.mode = .running ∧ step s = .next t ∧ t.mode = .faulted ⟨.stackOverflow, 0x200, 0x2FFF⟩) ∧
    (∃ s t : State, s.mode = .running ∧ step s = .next t ∧ t.mode = .faulted ⟨.stackUnderflow, 0x200, 0x00EE⟩) ∧
    (∃ s t : State, s.mode = .running ∧ step s = .next t ∧ t.mode = .faulted ⟨.keyIndexRange, 0x200, 0xE0A1⟩) :=
  ⟨⟨State.reset.withWordAtPc 0x1ABC, _, rfl, rfl, rfl⟩, ⟨State.reset, _, rfl, rfl, rfl⟩,
    ⟨{ State.reset with sp := 16 }.withWordAtPc 0x2FFF, _, rfl, rfl, rfl⟩,
    ⟨State.reset.withWordAtPc 0x00EE, _, rfl, rfl, rfl⟩,
    ⟨(regs [(0, 16)]).withWordAtPc 0xE0A1, _, rfl, rfl, rfl⟩⟩

theorem witness_RaisedFaultIsPrecise :
    ∃ s t : State, s.mode = .running ∧ step s = .next t ∧ t.mode = .faulted ⟨.decodeGap, 0x200, 0x0000⟩ :=
  ⟨State.reset, _, rfl, rfl, rfl⟩

/-- A faulted state that the machine reaches. -/
def faultedState : State := State.reset.raise .decodeGap 0x0000

theorem witness_FaultLastsUntilReset :
    faultedState.mode = .faulted ⟨.decodeGap, 0x200, 0x0000⟩ ∧ HostOp.tick ≠ HostOp.reset := by decide

/-- Waiting for key 15's register with no key pressed, with every key pressed, and with the last key alone. -/
theorem witness_WaitingStepReadsTheKeypad :
    ({ State.reset with mode := .awaitKey 15 }).mode = .awaitKey 15 ∧
    (∀ k : Reg, State.reset.key[k.val] = false) ∧
    (keys [0, 15])[0] = true ∧ (keys [15])[15] = true ∧ (∀ j : Reg, j < 15 → (keys [15])[j.val] = false) := by decide

theorem witness_EndStatesAreFixedBySteps :
    (State.reset.withWordAtPc 0x1200).selfLoop ∧ ({ State.reset with mode := .awaitKey 3 }).idleWait ∧
    faultedState.mode = .faulted ⟨.decodeGap, 0x200, 0x0000⟩ :=
  ⟨⟨by decide, by decide⟩, ⟨⟨3, rfl⟩, by decide⟩, rfl⟩

/-- Steps from a faulted, a running and a waiting state. -/
theorem witness_StepReportsTheMode :
    step faultedState = .next faultedState ∧
    (∃ t, step (State.reset.withWordAtPc 0x1ABC) = .next t ∧ t.mode = .running) ∧
    (∃ t, step (State.reset.withWordAtPc 0xF20A) = .next t ∧ t.mode = .awaitKey 2) ∧
    (∃ t, step State.reset = .next t ∧ t.mode = .faulted ⟨.decodeGap, 0x200, 0x0000⟩) :=
  ⟨rfl, ⟨_, rfl, rfl⟩, ⟨_, rfl, rfl⟩, ⟨_, rfl, rfl⟩⟩

theorem witness_InstructionsChangeOnlyTheirComponents : ∃ t, exec (.loadRegs 15) State.reset = .next t := ⟨_, rfl⟩

/-- An instruction that completes, with the register just above the last it writes. -/
theorem witness_InstructionsWriteOnlyTheirRegisters :
    (∃ t, exec (.loadRegs 14) State.reset = .next t) ∧ mayWriteReg (.loadRegs 14) 15 = false ∧
    mayWriteReg (.addReg 0 1) 14 = false := ⟨⟨_, rfl⟩, by decide, by decide⟩

theorem witness_OnlyRandomDependsOnTheDraw :
    (∀ x kk, Instr.cls ≠ .rnd x kk) ∧ ∃ t, exec .cls State.reset = .next t :=
  ⟨(fun _ _ h => by cases h), ⟨_, rfl⟩⟩

/-- The addresses on both sides of the font. -/
theorem witness_ResetStateIsTheTable :
    0x04F < 4096 ∧ (0x04F < 0x050 ∨ 0x0A0 ≤ 0x04F) ∧ 0x0A0 < 4096 ∧ (0x0A0 < 0x050 ∨ 0x0A0 ≤ 0x0A0) := by decide

/-- A faulted state with a program in memory meets the invariant and steps. -/
theorem witness_StepKeepsInvariant :
    Inv (bytesAt faultedState 0x300 [1, 2]) ∧
    step (bytesAt faultedState 0x300 [1, 2]) = .next (bytesAt faultedState 0x300 [1, 2]) := by
  refine ⟨⟨by decide, fun info h => ?_⟩, rfl⟩
  obtain rfl : _ = info := Mode.faulted.inj h
  exact ⟨rfl, .family0, by decide⟩

/-- The same for a schedule with a load, a step, a tick and a keypad write. -/
theorem witness_EveryScheduleKeepsInvariant :
    Inv faultedState ∧
    ∃ t, hostRun [.load [0x12, 0x00], .step, .tick, .setKeys (keys [1]), .reset, .step] faultedState = .next t := by
  refine ⟨⟨by decide, fun info h => ?_⟩, ⟨_, rfl⟩⟩
  obtain rfl : _ = info := Mode.faulted.inj h
  exact ⟨rfl, .family0, by decide⟩

/-- A call with an empty stack and with one free slot. -/
theorem witness_CallPushesTheNextAddress :
    State.reset.sp.val ≠ 16 ∧ ({ State.reset with sp := 15 }).sp.val ≠ 16 := by decide

theorem witness_CallWithFullStackFaults : (0xFFF : Word).toNat < 4096 ∧ ({ State.reset with sp := 16 }).sp.val = 16 := by
  decide

theorem witness_ReturnPopsIntoPc :
    State.reset.sp.val = 0 ∧ ({ State.reset with sp := 1 }).sp.val ≠ 0 ∧ ({ State.reset with sp := 16 }).sp.val ≠ 0 := by
  decide

/-- A call with one free slot, and a callee's state with the same stack. -/
theorem witness_ReturnResumesAfterTheCall :
    ({ State.reset with sp := 15 }).sp.val ≠ 16 ∧
    ∃ t, exec (.call 0x300) { State.reset with sp := 15 } = .next t ∧
      (t.writeV 0 1).stack = t.stack ∧ (t.writeV 0 1).sp = t.sp := ⟨by decide, _, rfl, rfl, rfl⟩

theorem witness_RegisterSkips :
    (0x5121 : Word).toNat / 4096 = 5 ∧ (0x5121 : Word).toNat % 16 ≠ 0 ∧
    (0x912F : Word).toNat / 4096 = 9 ∧ (0x912F : Word).toNat % 16 ≠ 0 := by decide

theorem witness_LoadIndexIsTheImmediate : (Instr.ldI 0xFFF).wellFormed = true := by decide

/-- Both values of the mask that have a clause of their own. -/
theorem witness_RandomIsTheMaskedDraw : ∃ kk kk' : Byte, kk = 0x00 ∧ kk' = 0xFF := ⟨_, _, rfl, rfl⟩

/-- Memory with bytes listed, at addresses inside and outside the three digits when `I` is at the top of memory. -/
theorem witness_DecimalDigitsAreStored :
    Memory.wf (bytesAt (State.reset.writeI 0xFFF) 0x300 [1, 2]).mem ∧
    ∀ k, k < 3 → maskAddr 0x002 ≠ (bytesAt (State.reset.writeI 0xFFF) 0x300 [1, 2]).effAddr k := by decide

/-- The last register of the longest block, and an address just past the block. -/
theorem witness_RegistersAreStoredInOrder :
    Memory.wf State.reset.mem ∧ (15 : Reg) ≤ 15 ∧
    ∀ k, k < (15 : Reg).val + 1 → maskAddr 0x310 ≠ (State.reset.writeI 0x300).effAddr k := by decide

theorem witness_RegistersAreLoadedInOrder : (14 : Reg) ≤ 14 ∧ (14 : Reg) < 15 ∧ (0 : Reg) ≤ 0 ∧ (0 : Reg) < 1 := by decide

/-- The state after the store, with every register cleared. -/
theorem witness_StoreThenLoadRestoresRegisters :
    Memory.wf (regs [(15, 7)]).mem ∧ ∃ t, exec (.storeRegs 15) (regs [(15, 7)]) = .next t ∧
      ({ t with V := State.reset.V }).I = (regs [(15, 7)]).I ∧
      ∀ a, ({ t with V := State.reset.V }).memRead a = t.memRead a := ⟨by decide, _, rfl, rfl, fun _ => rfl⟩

/-- `I` names the next instruction, by its 12-bit address and through the mask. -/
theorem witness_StoredCodeIsFetchedNext :
    Memory.wf State.reset.mem ∧ 1 ≤ (1 : Reg).val ∧
    (State.reset.writeI 0x0202).effAddr 0 = maskAddr ((State.reset.writeI 0x0202).pc + 2).toNat ∧
    (State.reset.writeI 0xF202).effAddr 0 = maskAddr ((State.reset.writeI 0xF202).pc + 2).toNat := by decide

/-- The state that draws one pixel at the right bottom corner. -/
def cornerState : State := bytesAt ((regs [(1, 63), (2, 31)]).writeI 0x300) 0x300 [0x80]

theorem cornerState_byte : cornerState.memRead (cornerState.indexAddr 0) = 0x80 := by decide

/-- A pixel under the sprite that is on and one that is off, and a pixel beside the sprite; the tallest sprite. -/
theorem witness_DrawTogglesExactlyTheSprite :
    15 < 16 ∧ UnderSprite cornerState 1 2 15 63 31 ∧ ¬ UnderSprite cornerState 1 2 1 62 31 ∧
    Framebuffer.pixel cornerState.fb 63 31 = false ∧
    UnderSprite { cornerState with fb := Framebuffer.flip cornerState.fb 63 31 } 1 2 15 63 31 ∧
    Framebuffer.pixel (Framebuffer.flip cornerState.fb 63 31) 63 31 = true := by
  refine ⟨by decide, ⟨0, 0, by decide⟩, ?_, by decide, ⟨0, 0, by decide⟩, by decide⟩
  rintro ⟨r, c, hr, hc, hbit, hx, -⟩
  obtain rfl : r = 0 := by omega
  rw [cornerState_byte] at hbit
  have h1 : (cornerState.readV 1).toNat = 63 := by decide
  rw [h1] at hx
  interval_cases c <;> simp_all

/-- The second collision clause: a framebuffer that is off under the whole sprite. -/
theorem witness_DrawTogglesExactlyTheSprite_no_collision (px py : Nat) (_ : UnderSprite State.reset 1 2 15 px py) :
    Framebuffer.pixel State.reset.fb px py = false := by
  simp [Framebuffer.pixel, State.reset]

theorem witness_DrawingTwiceRestoresTheScreen :
    1 < 16 ∧ (1 : Reg) ≠ VF ∧ (14 : Reg) ≠ VF ∧ (∀ px py : Nat, Framebuffer.pixel cornerState.fb px py = false) ∧
    cornerState.memRead (cornerState.indexAddr 0) ≠ 0 := by
  refine ⟨by decide, by decide, by decide, fun px py => ?_, by decide⟩
  show Framebuffer.pixel State.reset.fb px py = false
  simp [Framebuffer.pixel, State.reset]

theorem witness_ClearThenDrawShowsTheSprite : 0 < 16 ∧ 15 < 16 := by decide

theorem witness_KeySkips : ((regs [(5, 15)]).readV 5).toNat ≤ 15 ∧ (State.reset.readV 5).toNat ≤ 15 := by decide

theorem witness_KeySkipsFaultAboveFifteen :
    15 < ((regs [(5, 16)]).readV 5).toNat ∧ 15 < ((regs [(5, 255)]).readV 5).toNat := by decide

theorem witness_KeyWaitTakesTheLeastKey :
    (State.reset.setKeys (keys [15])).key[15] = true ∧
    (∀ j : Reg, j < 15 → (State.reset.setKeys (keys [15])).key[j.val] = false) ∧
    (State.reset.setKeys (keys [0, 15])).key[0] = true := by decide

theorem witness_KeyWaitEndsByAKeyPress :
    (∀ k : Reg, State.reset.key[k.val] = false) ∧ (keys [3, 7])[3] = true ∧
    (∀ j : Reg, j < 3 → (keys [3, 7])[j.val] = false) := by decide

/-- The longest image that loads, the shortest that does not, an address on each side of a loaded image. -/
theorem witness_LoadCopiesTheImage :
    Memory.wf State.reset.mem ∧ (∃ image : List Byte, image.length = 3584 ∧ image.length ≤ 3584) ∧
    (∃ image : List Byte, image.length = 3585 ∧ 3584 < image.length) ∧ 0x1FF < 4096 ∧ 0x1FF < 0x200 ∧
    0x202 < 4096 ∧ 0x200 + ([1, 2] : List Byte).length ≤ 0x202 :=
  ⟨by decide, ⟨_, List.length_replicate (a := 0xAA), by simp only [List.length_replicate, le_refl]⟩,
    ⟨_, List.length_replicate (a := 0xAA), by simp only [List.length_replicate, Nat.lt_succ_self]⟩, by decide⟩

theorem witness_BootedMachineStartsTheImage :
    (∃ rest : List Byte, rest.length = 3582 ∧ rest.length ≤ 3582) ∧
    decode (wordOfBytes 0x60 0x05) = .ok (.ldImm 0 5) :=
  ⟨⟨_, List.length_replicate (a := 0xAA), by simp only [List.length_replicate, le_refl]⟩, by decide⟩

end Sys2Proof.Tests
end

section
/-! SUPPORT. The rows of the opcode map as facts about the decoder: a word with a row's fixed bits decodes to that row's
instruction, a decoded instruction encodes to the word it came from, and no word has the fixed bits of two rows. -/

namespace Sys2Proof.Proofs

open Sys2Proof.Machine

/-! ### A word with a row's fixed bits, by the row's mask -/

/-- The encoding line of a row that fixes the family only. -/
theorem decodesAs_of_F000 {value : Word} {instr : Word → Instr}
    (h : ∀ w, fieldOp w = value.toNat / 4096 → decode w = .ok (instr w)) : DecodesAs 0xF000 value instr := by
  rintro w rfl
  refine h w ?_
  rw [fieldOp_eq, and_F000_toNat]; omega

/-- The encoding line of a row that fixes the family and the last digit. -/
theorem decodesAs_of_F00F {value : Word} {instr : Word → Instr}
    (h : ∀ w, fieldOp w = value.toNat / 4096 → fieldN w = value.toNat % 16 → decode w = .ok (instr w)) :
    DecodesAs 0xF00F value instr := by
  rintro w rfl
  refine h w ?_ ?_
  · rw [fieldOp_eq, and_F00F_toNat]; omega
  · rw [fieldN_eq, and_F00F_toNat]; omega

/-- The encoding line of a row that fixes the family and the low byte. -/
theorem decodesAs_of_F0FF {value : Word} {instr : Word → Instr}
    (h : ∀ w, fieldOp w = value.toNat / 4096 → (fieldKK w).toNat = value.toNat % 256 → decode w = .ok (instr w)) :
    DecodesAs 0xF0FF value instr := by
  rintro w rfl
  refine h w ?_ ?_
  · rw [fieldOp_eq, and_F0FF_toNat]; omega
  · rw [fieldKK_toNat, and_F0FF_toNat]; omega

/-- The encoding line of a row that fixes the whole word. -/
theorem decodesAs_of_FFFF {value : Word} {instr : Word → Instr} (h : decode value = .ok (instr value)) :
    DecodesAs 0xFFFF value instr := by
  rintro w hw
  rw [and_FFFF] at hw
  exact hw ▸ h

/-! ### The encoding line of every row (30_encoding.md R86) -/

theorem cls_decodesAs : DecodesAs 0xFFFF 0x00E0 (fun _ => .cls) := decodesAs_of_FFFF rfl
theorem ret_decodesAs : DecodesAs 0xFFFF 0x00EE (fun _ => .ret) := decodesAs_of_FFFF rfl
theorem jp_decodesAs : DecodesAs 0xF000 0x1000 (fun w => .jp (fieldNNN w)) :=
  decodesAs_of_F000 fun w hop => by simp [decode, hop]
theorem call_decodesAs : DecodesAs 0xF000 0x2000 (fun w => .call (fieldNNN w)) :=
  decodesAs_of_F000 fun w hop => by simp [decode, hop]
theorem seImm_decodesAs : DecodesAs 0xF000 0x3000 (fun w => .seImm (fieldX w) (fieldKK w)) :=
  decodesAs_of_F000 fun w hop => by simp [decode, hop]
theorem sneImm_decodesAs : DecodesAs 0xF000 0x4000 (fun w => .sneImm (fieldX w) (fieldKK w)) :=
  decodesAs_of_F000 fun w hop => by simp [decode, hop]
theorem seReg_decodesAs : DecodesAs 0xF00F 0x5000 (fun w => .seReg (fieldX w) (fieldY w)) :=
  decodesAs_of_F00F fun w hop hn => by simp [decode, hop, hn]
theorem ldImm_decodesAs : DecodesAs 0xF000 0x6000 (fun w => .ldImm (fieldX w) (fieldKK w)) :=
  decodesAs_of_F000 fun w hop => by simp [decode, hop]
theorem addImm_decodesAs : DecodesAs 0xF000 0x7000 (fun w => .addImm (fieldX w) (fieldKK w)) :=
  decodesAs_of_F000 fun w hop => by simp [decode, hop]
theorem ldReg_decodesAs : DecodesAs 0xF00F 0x8000 (fun w => .ldReg (fieldX w) (fieldY w)) :=
  decodesAs_of_F00F fun w hop hn => by simp [decode, decodeFamily8, hop, hn]
theorem orReg_decodesAs : DecodesAs 0xF00F 0x8001 (fun w => .orReg (fieldX w) (fieldY w)) :=
  decodesAs_of_F00F fun w hop hn => by simp [decode, decodeFamily8, hop, hn]
theorem andReg_decodesAs : DecodesAs 0xF00F 0x8002 (fun w => .andReg (fieldX w) (fieldY w)) :=
  decodesAs_of_F00F fun w hop hn => by simp [decode, decodeFamily8, hop, hn]
theorem xorReg_decodesAs : DecodesAs 0xF00F 0x8003 (fun w => .xorReg (fieldX w) (fieldY w)) :=
  decodesAs_of_F00F fun w hop hn => by simp [decode, decodeFamily8, hop, hn]
theorem addReg_decodesAs : DecodesAs 0xF00F 0x8004 (fun w => .addReg (fieldX w) (fieldY w)) :=
  decodesAs_of_F00F fun w hop hn => by simp [decode, decodeFamily8, hop, hn]
theorem sub_decodesAs : DecodesAs 0xF00F 0x8005 (fun w => .sub (fieldX w) (fieldY w)) :=
  decodesAs_of_F00F fun w hop hn => by simp [decode, decodeFamily8, hop, hn]
theorem shr_decodesAs : DecodesAs 0xF00F 0x8006 (fun w => .shr (fieldX w) (fieldY w)) :=
  decodesAs_of_F00F fun w hop hn => by simp [decode, decodeFamily8, hop, hn]
theorem subn_decodesAs : DecodesAs 0xF00F 0x8007 (fun w => .subn (fieldX w) (fieldY w)) :=
  decodesAs_of_F00F fun w hop hn => by simp [decode, decodeFamily8, hop, hn]
theorem shl_decodesAs : DecodesAs 0xF00F 0x800E (fun w => .shl (fieldX w) (fieldY w)) :=
  decodesAs_of_F00F fun w hop hn => by simp [decode, decodeFamily8, hop, hn]
theorem sneReg_decodesAs : DecodesAs 0xF00F 0x9000 (fun w => .sneReg (fieldX w) (fieldY w)) :=
  decodesAs_of_F00F fun w hop hn => by simp [decode, hop, hn]
theorem ldI_decodesAs : DecodesAs 0xF000 0xA000 (fun w => .ldI (fieldNNN w)) :=
  decodesAs_of_F000 fun w hop => by simp [decode, hop]
theorem jpV0_decodesAs : DecodesAs 0xF000 0xB000 (fun w => .jpV0 (fieldNNN w)) :=
  decodesAs_of_F000 fun w hop => by simp [decode, hop]
theorem rnd_decodesAs : DecodesAs 0xF000 0xC000 (fun w => .rnd (fieldX w) (fieldKK w)) :=
  decodesAs_of_F000 fun w hop => by simp [decode, hop]
theorem drw_decodesAs : DecodesAs 0xF000 0xD000 (fun w => .drw (fieldX w) (fieldY w) (fieldN w)) :=
  decodesAs_of_F000 fun w hop => by simp [decode, hop]
theorem skp_decodesAs : DecodesAs 0xF0FF 0xE09E (fun w => .skp (fieldX w)) :=
  decodesAs_of_F0FF fun w hop hkk => by simp [decode, decodeFamilyE, hop, hkk]
theorem sknp_decodesAs : DecodesAs 0xF0FF 0xE0A1 (fun w => .sknp (fieldX w)) :=
  decodesAs_of_F0FF fun w hop hkk => by simp [decode, decodeFamilyE, hop, hkk]
theorem ldFromDT_decodesAs : DecodesAs 0xF0FF 0xF007 (fun w => .ldFromDT (fieldX w)) :=
  decodesAs_of_F0FF fun w hop hkk => by simp [decode, decodeFamilyF, hop, hkk]
theorem ldKey_decodesAs : DecodesAs 0xF0FF 0xF00A (fun w => .ldKey (fieldX w)) :=
  decodesAs_of_F0FF fun w hop hkk => by simp [decode, decodeFamilyF, hop, hkk]
theorem ldDT_decodesAs : DecodesAs 0xF0FF 0xF015 (fun w => .ldDT (fieldX w)) :=
  decodesAs_of_F0FF fun w hop hkk => by simp [decode, decodeFamilyF, hop, hkk]
theorem ldST_decodesAs : DecodesAs 0xF0FF 0xF018 (fun w => .ldST (fieldX w)) :=
  decodesAs_of_F0FF fun w hop hkk => by simp [decode, decodeFamilyF, hop, hkk]
theorem addI_decodesAs : DecodesAs 0xF0FF 0xF01E (fun w => .addI (fieldX w)) :=
  decodesAs_of_F0FF fun w hop hkk => by simp [decode, decodeFamilyF, hop, hkk]
theorem ldF_decodesAs : DecodesAs 0xF0FF 0xF029 (fun w => .ldF (fieldX w)) :=
  decodesAs_of_F0FF fun w hop hkk => by simp [decode, decodeFamilyF, hop, hkk]
theorem ldB_decodesAs : DecodesAs 0xF0FF 0xF033 (fun w => .ldB (fieldX w)) :=
  decodesAs_of_F0FF fun w hop hkk => by simp [decode, decodeFamilyF, hop, hkk]
theorem storeRegs_decodesAs : DecodesAs 0xF0FF 0xF055 (fun w => .storeRegs (fieldX w)) :=
  decodesAs_of_F0FF fun w hop hkk => by simp [decode, decodeFamilyF, hop, hkk]
theorem loadRegs_decodesAs : DecodesAs 0xF0FF 0xF065 (fun w => .loadRegs (fieldX w)) :=
  decodesAs_of_F0FF fun w hop hkk => by simp [decode, decodeFamilyF, hop, hkk]

/-! ### A decoded instruction encodes to the word it came from -/

variable {w : Word} {i : Instr}

theorem encode_of_decodeFamily0 (h : decodeFamily0 w = .ok i) : encode i = w := by
  unfold decodeFamily0 at h
  split_ifs at h with hcls hret
  · cases h; exact hcls.symm
  · cases h; exact hret.symm

theorem encode_of_decodeFamily8 (hop : fieldOp w = 0x8) (h : decodeFamily8 w = .ok i) : encode i = w := by
  unfold decodeFamily8 at h
  split at h <;> cases h
  all_goals exact packXYN_fields w 0x8 _ hop (by assumption)

theorem encode_of_decodeFamilyE (hop : fieldOp w = 0xE) (h : decodeFamilyE w = .ok i) : encode i = w := by
  unfold decodeFamilyE at h
  split at h <;> cases h
  all_goals exact packXKK_fields w 0xE _ hop (by assumption)

theorem encode_of_decodeFamilyF (hop : fieldOp w = 0xF) (h : decodeFamilyF w = .ok i) : encode i = w := by
  unfold decodeFamilyF at h
  split at h <;> cases h
  all_goals exact packXKK_fields w 0xF _ hop (by assumption)

theorem encode_of_decode (h : decode w = .ok i) : encode i = w := by
  unfold decode at h
  split at h
  next => exact encode_of_decodeFamily0 h
  next hop => cases h; exact packNNN_fields w 0x1 hop
  next hop => cases h; exact packNNN_fields w 0x2 hop
  next hop => cases h; exact packXKK_fields w 0x3 _ hop rfl
  next hop => cases h; exact packXKK_fields w 0x4 _ hop rfl
  next hop =>
    split_ifs at h with hn
    cases h; exact packXYN_fields w 0x5 0x0 hop hn
  next hop => cases h; exact packXKK_fields w 0x6 _ hop rfl
  next hop => cases h; exact packXKK_fields w 0x7 _ hop rfl
  next hop => exact encode_of_decodeFamily8 hop h
  next hop =>
    split_ifs at h with hn
    cases h; exact packXYN_fields w 0x9 0x0 hop hn
  next hop => cases h; exact packNNN_fields w 0xA hop
  next hop => cases h; exact packNNN_fields w 0xB hop
  next hop => cases h; exact packXKK_fields w 0xC _ hop rfl
  next hop =>
    cases h
    exact packXYN_fields w 0xD _ hop (by rw [BitVec.toNat_ofNat, Nat.mod_eq_of_lt (fieldN_lt w)])
  next hop => exact encode_of_decodeFamilyE hop h
  next =>
    have hop : fieldOp w = 0xF := by
      have := fieldOp_lt w
      simp only [imp_false] at *
      omega
    exact encode_of_decodeFamilyF hop h

/-! ### The rows and the instructions -/

theorem row_mem_opcodeMap (i : Instr) : i.row ∈ opcodeMap := by
  cases i <;> simp [opcodeMap, Instr.row]

open Laws.FixedBits in
theorem row_matches_encode (i : Instr) : i.row.matchesWord (encode i) = true :=
  match i with
  | .cls => cls
  | .ret => ret
  | .jp nnn => jp nnn
  | .call nnn => call nnn
  | .seImm x kk => seImm x kk
  | .sneImm x kk => sneImm x kk
  | .seReg x y => seReg x y
  | .ldImm x kk => ldImm x kk
  | .addImm x kk => addImm x kk
  | .ldReg x y => ldReg x y
  | .orReg x y => orReg x y
  | .andReg x y => andReg x y
  | .xorReg x y => xorReg x y
  | .addReg x y => addReg x y
  | .sub x y => sub x y
  | .shr x y => shr x y
  | .subn x y => subn x y
  | .shl x y => shl x y
  | .sneReg x y => sneReg x y
  | .ldI nnn => ldI nnn
  | .jpV0 nnn => jpV0 nnn
  | .rnd x kk => rnd x kk
  | .drw x y n => drw x y n
  | .skp x => skp x
  | .sknp x => sknp x
  | .ldFromDT x => ldFromDT x
  | .ldKey x => ldKey x
  | .ldDT x => ldDT x
  | .ldST x => ldST x
  | .addI x => addI x
  | .ldF x => ldF x
  | .ldB x => ldB x
  | .storeRegs x => storeRegs x
  | .loadRegs x => loadRegs x

theorem row_matches_of_decode (h : decode w = .ok i) : i.row.matchesWord w = true :=
  encode_of_decode h ▸ row_matches_encode i

/-- Two rows whose fixed bits agree wherever both fix a bit are one row (30_encoding.md R87). -/
theorem rows_disjoint : ∀ r ∈ opcodeMap, ∀ r' ∈ opcodeMap, r.value &&& r'.mask = r'.value &&& r.mask → r = r' := by
  decide

theorem row_unique {r r' : OpcodeRow} (hr : r ∈ opcodeMap) (hr' : r' ∈ opcodeMap) (h : r.matchesWord w = true)
    (h' : r'.matchesWord w = true) : r = r' := by
  have hw : w &&& r.mask = r.value := of_decide_eq_true h
  have hw' : w &&& r'.mask = r'.value := of_decide_eq_true h'
  refine rows_disjoint r hr r' hr' ?_
  rw [← hw, ← hw', BitVec.and_assoc, BitVec.and_assoc, BitVec.and_comm r.mask]

/-- No row of the map is missing from the decoder. -/
theorem decode_of_row_matches : ∀ r ∈ opcodeMap, r.matchesWord w = true → ∃ i, decode w = .ok i := by
  simp only [opcodeMap, Instr.row, OpcodeRow.matchesWord, decide_eq_true_eq, List.cons_append, List.nil_append,
    List.forall_mem_cons, List.not_mem_nil, IsEmpty.forall_iff, implies_true, and_true]
  exact ⟨fun h => ⟨_, cls_decodesAs w h⟩, fun h => ⟨_, ret_decodesAs w h⟩, fun h => ⟨_, jp_decodesAs w h⟩,
    fun h => ⟨_, call_decodesAs w h⟩, fun h => ⟨_, seImm_decodesAs w h⟩, fun h => ⟨_, sneImm_decodesAs w h⟩,
    fun h => ⟨_, seReg_decodesAs w h⟩, fun h => ⟨_, ldImm_decodesAs w h⟩, fun h => ⟨_, addImm_decodesAs w h⟩,
    fun h => ⟨_, ldReg_decodesAs w h⟩, fun h => ⟨_, orReg_decodesAs w h⟩, fun h => ⟨_, andReg_decodesAs w h⟩,
    fun h => ⟨_, xorReg_decodesAs w h⟩, fun h => ⟨_, addReg_decodesAs w h⟩, fun h => ⟨_, sub_decodesAs w h⟩,
    fun h => ⟨_, shr_decodesAs w h⟩, fun h => ⟨_, subn_decodesAs w h⟩, fun h => ⟨_, shl_decodesAs w h⟩,
    fun h => ⟨_, sneReg_decodesAs w h⟩, fun h => ⟨_, ldI_decodesAs w h⟩, fun h => ⟨_, jpV0_decodesAs w h⟩,
    fun h => ⟨_, rnd_decodesAs w h⟩, fun h => ⟨_, drw_decodesAs w h⟩, fun h => ⟨_, skp_decodesAs w h⟩,
    fun h => ⟨_, sknp_decodesAs w h⟩, fun h => ⟨_, ldFromDT_decodesAs w h⟩, fun h => ⟨_, ldKey_decodesAs w h⟩,
    fun h => ⟨_, ldDT_decodesAs w h⟩, fun h => ⟨_, ldST_decodesAs w h⟩, fun h => ⟨_, addI_decodesAs w h⟩,
    fun h => ⟨_, ldF_decodesAs w h⟩, fun h => ⟨_, ldB_decodesAs w h⟩, fun h => ⟨_, storeRegs_decodesAs w h⟩,
    fun h => ⟨_, loadRegs_decodesAs w h⟩⟩

/-- A word is a gap exactly when it has the fixed bits of no row (30_encoding.md R88). -/
theorem no_row_matches_iff_gap : (∀ r ∈ opcodeMap, r.matchesWord w = false) ↔ ∃ g, decode w = .error g := by
  constructor
  · intro hnone
    cases h : decode w with
    | error g => exact ⟨g, rfl⟩
    | ok i => exact absurd (row_matches_of_decode h) (by simp [hnone i.row (row_mem_opcodeMap i)])
  · rintro ⟨g, hg⟩ r hr
    by_contra hmatch
    obtain ⟨i, hi⟩ := decode_of_row_matches r hr (by simpa using hmatch)
    simp [hg] at hi

end Sys2Proof.Proofs
end

section
/-! PROOFS. The obligations about the encoding (30_encoding.md). -/

namespace Sys2Proof.Proofs

/-- Settles O3: the row of the decoded instruction matches because that instruction encodes to the word; a matching row
makes the word decode, and then is the decoded instruction's row because two rows never match one word. -/
theorem decodePicksTheOneMatchingRow : Obligations.DecodePicksTheOneMatchingRow := by
  intro w
  refine ⟨fun i hi => ⟨row_mem_opcodeMap i, row_matches_of_decode hi⟩, fun r hr h => ?_,
    fun r hr r' hr' h h' => row_unique hr hr' h h', no_row_matches_iff_gap⟩
  obtain ⟨i, hi⟩ := decode_of_row_matches r hr h
  exact ⟨i, hi, row_unique (row_mem_opcodeMap i) hr (row_matches_of_decode hi) h⟩

end Sys2Proof.Proofs
end

section
/-! SUPPORT. What the jumps and skips do to the state: writing `pc` leaves every component of a frame as it was, and a
skip's `pc` is one of two values. -/

namespace Sys2Proof.Proofs

open Sys2Proof.Machine

/-! ### `pc` is in no frame (10_state.md R44) -/

/-- No component a frame speaks of reads `pc`. -/
theorem field_same_setPc (f : Machine.Field) (s t : State) (target : Word) : f.same s (t.setPc target) ↔ f.same s t := by
  cases f <;> rfl

theorem onlyChanges_refl (fs : List Machine.Field) (s : State) : OnlyChanges fs s s := by
  intro f _
  cases f with
  | mem => exact fun _ => rfl
  | V => exact fun _ => rfl
  | _ => rfl

theorem onlyChanges_setPc {fs : List Machine.Field} {s t : State} (h : OnlyChanges fs s t) (target : Word) :
    OnlyChanges fs s (t.setPc target) :=
  fun f hf => (field_same_setPc f s t target).2 (h f hf)

theorem onlyChanges_advance {fs : List Machine.Field} {s t : State} (h : OnlyChanges fs s t) (k : Word) :
    OnlyChanges fs s (t.advance k) :=
  onlyChanges_setPc h (t.pc + k)

theorem onlyChanges_skipIf (s : State) (c : Bool) : OnlyChanges [] s (s.skipIf c) :=
  onlyChanges_advance (onlyChanges_refl [] s) _

/-! ### Where a skip goes (40_engine_cycle.md R105), with byte equality read as equality of numbers -/

theorem skipIf_eq_pc (s : State) (a b : Byte) :
    (s.skipIf (decide (a = b))).pc = if a.toNat = b.toNat then s.pc + 4 else s.pc + 2 := by
  by_cases h : a = b
  · simp [h]
  · simp [h, BitVec.toNat_inj]

theorem skipIf_ne_pc (s : State) (a b : Byte) :
    (s.skipIf (decide (a ≠ b))).pc = if a.toNat = b.toNat then s.pc + 2 else s.pc + 4 := by
  by_cases h : a = b
  · simp [h]
  · simp [h, BitVec.toNat_inj]

/-! ### The gaps of the register skips (30_encoding.md R88) -/

theorem decode_family5_gap {w : Word} (hop : fieldOp w = 0x5) (hn : fieldN w ≠ 0) :
    decode w = .error .family5 := by
  simp [decode, hop, hn]

theorem decode_family9_gap {w : Word} (hop : fieldOp w = 0x9) (hn : fieldN w ≠ 0) :
    decode w = .error .family9 := by
  simp [decode, hop, hn]

end Sys2Proof.Proofs
end

section
/-! PROOFS. The obligations about the jump and the skips (41_control_flow.md). -/

namespace Sys2Proof.Proofs

open Sys2Proof.Machine

/-- Settles O24: the next state is `s.setPc nnn`, and `pc` is in no frame. -/
theorem jumpWritesItsTarget : Obligations.JumpWritesItsTarget :=
  ⟨jp_decodesAs, fun nnn s => ⟨s.setPc nnn, rfl, rfl, onlyChanges_setPc (onlyChanges_refl [] s) nnn⟩⟩

/-- Settles O30: both are one `skipIf`, on equality and on inequality with the immediate. -/
theorem immediateSkips : Obligations.ImmediateSkips := by
  refine ⟨seImm_decodesAs, sneImm_decodesAs, fun x kk s => ⟨?_, ?_⟩⟩
  · exact ⟨s.skipIf (decide (s.readV x = kk)), rfl, skipIf_eq_pc s _ _, onlyChanges_skipIf s _⟩
  · exact ⟨s.skipIf (decide (s.readV x ≠ kk)), rfl, skipIf_ne_pc s _ _, onlyChanges_skipIf s _⟩

/-- Settles O31: both are one `skipIf` on the two registers' values; the gaps are the words of families 5 and 9 whose low
nibble the decoder checks and rejects. -/
theorem registerSkips : Obligations.RegisterSkips := by
  refine ⟨seReg_decodesAs, sneReg_decodesAs, fun w hop hn => ⟨.family5, ?_⟩, fun w hop hn => ⟨.family9, ?_⟩,
    fun x y s => ⟨?_, ?_⟩⟩
  · exact decode_family5_gap ((fieldOp_eq w).trans hop) (fieldN_eq w ▸ hn)
  · exact decode_family9_gap ((fieldOp_eq w).trans hop) (fieldN_eq w ▸ hn)
  · exact ⟨s.skipIf (decide (s.readV x = s.readV y)), rfl, skipIf_eq_pc s _ _, onlyChanges_skipIf s _⟩
  · exact ⟨s.skipIf (decide (s.readV x ≠ s.readV y)), rfl, skipIf_ne_pc s _ _, onlyChanges_skipIf s _⟩

end Sys2Proof.Proofs
end

section
/-! SUPPORT. What an instruction that ends in one register write does to the state: the register holds the value, the other
registers and every other component of a frame are as they were. -/

namespace Sys2Proof.Proofs

open Sys2Proof.Machine

/-- A register write changes no component but the register file. -/
theorem onlyChanges_writeV (s : State) (x : Reg) (v : Byte) : OnlyChanges [.V] s (s.writeV x v) := by
  intro f hf
  cases f with
  | V => exact absurd List.mem_cons_self hf
  | mem => exact fun _ => rfl
  | _ => rfl

/-- `finishV` meets the claim of a one-register instruction for every number its byte stands for. -/
theorem wroteReg_finishV (s : State) (x : Reg) {v : Byte} {value : Nat} (hv : v.toNat = value) :
    WroteReg x value s (s.finishV x v) := by
  refine ⟨?_, fun r hr => ?_, State.finishV_pc s x v, onlyChanges_advance (onlyChanges_writeV s x v) 2⟩
  · rw [State.readV_finishV, if_pos rfl, hv]
  · rw [State.readV_finishV, if_neg hr]

/-- An instruction whose meaning is one `finishV` completes and meets the claim. -/
theorem exec_wroteReg {i : Instr} {s : State} {x : Reg} {v : Byte} {value : Nat}
    (hexec : exec i s = .next (s.finishV x v)) (hv : v.toNat = value) :
    ∃ t, exec i s = .next t ∧ WroteReg x value s t :=
  ⟨s.finishV x v, hexec, wroteReg_finishV s x hv⟩

end Sys2Proof.Proofs
end

section
/-! PROOFS. The obligations about the loads, the immediate addition and the bitwise instructions (42_alu.md). -/

namespace Sys2Proof.Proofs

open Sys2Proof.Machine

/-- Settles O32: both are one `finishV`, of the immediate and of Vy's value. -/
theorem registerLoads : Obligations.RegisterLoads :=
  ⟨ldImm_decodesAs, ldReg_decodesAs,
    fun _ kk _ => exec_wroteReg (v := kk) rfl rfl,
    fun _ y s => exec_wroteReg (v := s.readV y) rfl rfl⟩

/-- Settles O33: it is one `finishV` of a byte sum, which is the sum of the numbers modulo 256. -/
theorem addImmediateWrapsWithoutFlag : Obligations.AddImmediateWrapsWithoutFlag :=
  ⟨addImm_decodesAs, fun x kk s => exec_wroteReg (v := s.readV x + kk) rfl (BitVec.toNat_add _ _)⟩

/-- Settles O34: each is one `finishV` of a bitwise operation on bytes, which is that operation on the numbers. -/
theorem bitwiseInstructions : Obligations.BitwiseInstructions :=
  ⟨orReg_decodesAs, andReg_decodesAs, xorReg_decodesAs, fun x y s =>
    ⟨exec_wroteReg (v := s.readV x ||| s.readV y) rfl (BitVec.toNat_or _ _),
      exec_wroteReg (v := s.readV x &&& s.readV y) rfl (BitVec.toNat_and _ _),
      exec_wroteReg (v := s.readV x ^^^ s.readV y) rfl (BitVec.toNat_xor _ _)⟩⟩

end Sys2Proof.Proofs
end

section
/-! SUPPORT. What an instruction that ends in one write of `I` does to the state, and the range of a 12-bit immediate. -/

namespace Sys2Proof.Proofs

open Sys2Proof.Machine

/-- A write of the index register changes no other component. -/
theorem onlyChanges_writeI (s : State) (v : Word) : OnlyChanges [.I] s (s.writeI v) := by
  intro f hf
  cases f with
  | I => exact absurd List.mem_cons_self hf
  | mem => exact fun _ => rfl
  | V => exact fun _ => rfl
  | _ => rfl

/-- A sequential instruction that writes the index register has the frame of that write (43_index_memory.md R170). -/
theorem onlyChanges_writeI_advance (s : State) (v k : Word) : OnlyChanges [.I] s ((s.writeI v).advance k) :=
  onlyChanges_advance (onlyChanges_writeI s v) k

/-- A well-formed `LD I, nnn` is one whose immediate is an address of memory (30_encoding.md R81). -/
theorem ldI_wellFormed_iff (nnn : Word) : (Instr.ldI nnn).wellFormed = true ↔ nnn.toNat ≤ 0x0FFF :=
  decide_eq_true_iff.trans Nat.lt_succ_iff

end Sys2Proof.Proofs
end

section
/-! PROOFS. The obligations about the loads of the index register (43_index_memory.md). -/

namespace Sys2Proof.Proofs

open Sys2Proof.Machine

/-- Settles O39: the next state is one write of the immediate to `I` and one advance, and a well-formed immediate fits 12
bits. -/
theorem loadIndexIsTheImmediate : Obligations.LoadIndexIsTheImmediate :=
  ⟨ldI_decodesAs, fun nnn s => ⟨(s.writeI nnn).advance 2, rfl, State.writeI_I s nnn, (ldI_wellFormed_iff nnn).1,
    State.advance_pc _ 2, onlyChanges_writeI_advance s nnn 2⟩⟩

/-- Settles O41: the next state is one write of the glyph address to `I` and one advance, and the glyph address of a byte
never wraps. -/
theorem glyphAddressIsTheFormula : Obligations.GlyphAddressIsTheFormula :=
  ⟨ldF_decodesAs, fun x s => ⟨(s.writeI (glyphAddr (s.readV x))).advance 2, rfl, glyphAddr_toNat (s.readV x),
    State.advance_pc _ 2, onlyChanges_writeI_advance s _ 2⟩⟩

end Sys2Proof.Proofs
end

section
/-! SUPPORT. The pixels of the cleared framebuffer, and the frame of a write of the framebuffer. -/

namespace Sys2Proof.Proofs

open Sys2Proof.Machine

/-- The cleared framebuffer is off at every coordinate, wrapped ones included (44_display.md R190). -/
@[simp] theorem pixel_clear (x y : Nat) : Framebuffer.pixel Framebuffer.clear x y = false := by
  simp only [Framebuffer.pixel, Framebuffer.clear, Vector.getElem_replicate]

/-- A write of the framebuffer changes no other component. -/
theorem onlyChanges_fb (s : State) (fb : Framebuffer) : OnlyChanges [.fb] s { s with fb := fb } := by
  intro f hf
  cases f with
  | fb => exact absurd List.mem_cons_self hf
  | mem => exact fun _ => rfl
  | V => exact fun _ => rfl
  | _ => rfl

end Sys2Proof.Proofs
end

section
/-! PROOFS. The obligations about the framebuffer (44_display.md). -/

namespace Sys2Proof.Proofs

open Sys2Proof.Machine

/-- Settles O47: the next state is one write of the cleared framebuffer and one advance. -/
theorem clearTurnsEveryPixelOff : Obligations.ClearTurnsEveryPixelOff :=
  ⟨cls_decodesAs, fun s => ⟨{ s with fb := Framebuffer.clear }.advance 2, rfl, pixel_clear, State.advance_pc _ 2,
    onlyChanges_advance (onlyChanges_fb s Framebuffer.clear) 2⟩⟩

end Sys2Proof.Proofs
end

section
/-! SUPPORT. The frames of a write of either timer. -/

namespace Sys2Proof.Proofs

open Sys2Proof.Machine

/-- A write of the delay timer changes no other component. -/
theorem onlyChanges_DT (s : State) (v : Byte) : OnlyChanges [.DT] s { s with DT := v } := by
  intro f hf
  cases f with
  | DT => exact absurd List.mem_cons_self hf
  | mem => exact fun _ => rfl
  | V => exact fun _ => rfl
  | _ => rfl

/-- A write of the sound timer changes no other component. -/
theorem onlyChanges_ST (s : State) (v : Byte) : OnlyChanges [.ST] s { s with ST := v } := by
  intro f hf
  cases f with
  | ST => exact absurd List.mem_cons_self hf
  | mem => exact fun _ => rfl
  | V => exact fun _ => rfl
  | _ => rfl

end Sys2Proof.Proofs
end

section
/-! PROOFS. The obligations about the timer instructions (45_keys_timers.md). -/

namespace Sys2Proof.Proofs

open Sys2Proof.Machine

/-- Settles O55: the read of DT is one `finishV`; each write of a timer is one record update and one advance. -/
theorem timerInstructions : Obligations.TimerInstructions := by
  refine ⟨ldFromDT_decodesAs, ldDT_decodesAs, ldST_decodesAs, fun x s => ⟨?_, ?_, ?_⟩⟩
  · exact exec_wroteReg (v := s.DT) rfl rfl
  · exact ⟨{ s with DT := s.readV x }.advance 2, rfl, State.advance_DT _ 2, State.advance_pc _ 2,
      onlyChanges_advance (onlyChanges_DT s (s.readV x)) 2⟩
  · exact ⟨{ s with ST := s.readV x }.advance 2, rfl, State.advance_ST _ 2, State.advance_pc _ 2,
      onlyChanges_advance (onlyChanges_ST s (s.readV x)) 2⟩

end Sys2Proof.Proofs
end

section
/-! SUPPORT. What one tick and `n` ticks do to each timer, as subtraction of natural numbers, and the frame of a tick. -/

namespace Sys2Proof.Proofs

open Sys2Proof.Machine

/-- One tick of a timer is the truncated predecessor of its number: both the decrement and the stop at 0
(60_exceptions.md R241). -/
theorem tickTimer_toNat (t : Byte) : (tickTimer t).toNat = t.toNat - 1 := by
  unfold tickTimer
  split
  case isTrue h => rw [h]; rfl
  case isFalse h => bv_omega

/-- The truncated predecessor, by the two cases of R241. -/
theorem tickTimer_toNat_cases (t : Byte) : (tickTimer t).toNat = if 0 < t.toNat then t.toNat - 1 else 0 := by
  rw [tickTimer_toNat]
  split <;> omega

/-- A timer that every tick steps by `tickTimer` loses `n` in `n` ticks and stops at 0; `timer` is either of the two. -/
theorem iterate_tick_timer_toNat {timer : State → Byte} (h : ∀ s, timer s.tick = tickTimer (timer s)) (n : Nat)
    (s : State) : (timer (State.tick^[n] s)).toNat = (timer s).toNat - n := by
  induction n with
  | zero => rfl
  | succ n ih => rw [Function.iterate_succ_apply', h, tickTimer_toNat, ih, Nat.sub_sub]

theorem field_same_trans {f : Machine.Field} {s t u : State} (hst : f.same s t) (htu : f.same t u) : f.same s u := by
  cases f with
  | mem => exact fun a => (htu a).trans (hst a)
  | V => exact fun r => (htu r).trans (hst r)
  | _ => exact Eq.trans htu hst

/-- Two changes in a row change no more than the components of both. -/
theorem onlyChanges_trans {fs gs : List Machine.Field} {s t u : State} (hst : OnlyChanges fs s t)
    (htu : OnlyChanges gs t u) : OnlyChanges (fs ++ gs) s u := fun f hf =>
  field_same_trans (hst f (hf ∘ List.mem_append_left gs)) (htu f (hf ∘ List.mem_append_right fs))

/-- A tick is a write of the delay timer and then one of the sound timer (60_exceptions.md R241). -/
theorem onlyChanges_tick (s : State) : OnlyChanges [.DT, .ST] s s.tick :=
  onlyChanges_trans (onlyChanges_DT s (tickTimer s.DT))
    (onlyChanges_ST { s with DT := tickTimer s.DT } (tickTimer s.ST))

end Sys2Proof.Proofs
end

section
/-! PROOFS. The obligation about the timers' countdown (60_exceptions.md). -/

namespace Sys2Proof.Proofs

open Sys2Proof.Machine

/-- Settles O56: one tick is the truncated predecessor of each timer, and `n` ticks are an induction on it. -/
theorem ticksCountDownToZero : Obligations.TicksCountDownToZero := fun s =>
  ⟨tickTimer_toNat_cases s.DT, tickTimer_toNat_cases s.ST, State.tick_pc s, onlyChanges_tick s, fun n =>
    ⟨iterate_tick_timer_toNat State.tick_DT n s, iterate_tick_timer_toNat State.tick_ST n s⟩⟩

end Sys2Proof.Proofs
end

section
/-! SUPPORT. Decoding an encoding, by the layout of the word; the operands of a decoded instruction; and the words of
each gap set. -/

namespace Sys2Proof.Proofs

open Sys2Proof.Machine

/-! ### A laid-out word with a row's fixed bits decodes to the row's instruction with the operands laid out -/

theorem encode_and_mask (i : Instr) : encode i &&& i.row.mask = i.row.value := of_decide_eq_true (row_matches_encode i)

section Layouts

variable {mask value : Word} {op : BitVec 4}

theorem decode_packNNN {instr : Word → Instr} (hrow : DecodesAs mask value fun w => instr (fieldNNN w)) {nnn : Word}
    (hbits : packNNN op nnn &&& mask = value) (hnnn : fitsNNN nnn = true) :
    decode (packNNN op nnn) = .ok (instr nnn) := by
  refine (hrow _ hbits).trans ?_
  simp only [fieldNNN_packNNN op nnn (of_decide_eq_true hnnn)]

theorem decode_packXKK {instr : Reg → Byte → Instr} (hrow : DecodesAs mask value fun w => instr (fieldX w) (fieldKK w))
    {x : Reg} {kk : Byte} (hbits : packXKK op x kk &&& mask = value) :
    decode (packXKK op x kk) = .ok (instr x kk) := by
  refine (hrow _ hbits).trans ?_
  simp only [fieldX_packXKK, fieldKK_packXKK]

theorem decode_packXKK_x {instr : Reg → Instr} (hrow : DecodesAs mask value fun w => instr (fieldX w)) {x : Reg}
    {kk : Byte} (hbits : packXKK op x kk &&& mask = value) : decode (packXKK op x kk) = .ok (instr x) := by
  refine (hrow _ hbits).trans ?_
  simp only [fieldX_packXKK]

theorem decode_packXYN {instr : Reg → Reg → Instr} (hrow : DecodesAs mask value fun w => instr (fieldX w) (fieldY w))
    {x y : Reg} {n : BitVec 4} (hbits : packXYN op x y n &&& mask = value) :
    decode (packXYN op x y n) = .ok (instr x y) := by
  refine (hrow _ hbits).trans ?_
  simp only [fieldX_packXYN, fieldY_packXYN]

theorem decode_packXYN_n {instr : Reg → Reg → Nat → Instr}
    (hrow : DecodesAs mask value fun w => instr (fieldX w) (fieldY w) (fieldN w)) {x y : Reg} {n : Nat}
    (hbits : packXYN op x y (BitVec.ofNat 4 n) &&& mask = value) (hn : fitsN n = true) :
    decode (packXYN op x y (BitVec.ofNat 4 n)) = .ok (instr x y n) := by
  refine (hrow _ hbits).trans ?_
  simp only [fieldX_packXYN, fieldY_packXYN, fieldN_packXYN, BitVec.toNat_ofNat,
    Nat.mod_eq_of_lt (of_decide_eq_true hn)]

end Layouts

/-- The decoder reads every well-formed instruction back from its word (30_encoding.md R81, R86). -/
theorem decode_encode (i : Instr) (hwf : i.wellFormed = true) : decode (encode i) = .ok i :=
  match i, encode_and_mask i, hwf with
  | .cls, hbits, _ => cls_decodesAs _ hbits
  | .ret, hbits, _ => ret_decodesAs _ hbits
  | .jp _, hbits, hnnn => decode_packNNN jp_decodesAs hbits hnnn
  | .call _, hbits, hnnn => decode_packNNN call_decodesAs hbits hnnn
  | .seImm _ _, hbits, _ => decode_packXKK seImm_decodesAs hbits
  | .sneImm _ _, hbits, _ => decode_packXKK sneImm_decodesAs hbits
  | .seReg _ _, hbits, _ => decode_packXYN seReg_decodesAs hbits
  | .ldImm _ _, hbits, _ => decode_packXKK ldImm_decodesAs hbits
  | .addImm _ _, hbits, _ => decode_packXKK addImm_decodesAs hbits
  | .ldReg _ _, hbits, _ => decode_packXYN ldReg_decodesAs hbits
  | .orReg _ _, hbits, _ => decode_packXYN orReg_decodesAs hbits
  | .andReg _ _, hbits, _ => decode_packXYN andReg_decodesAs hbits
  | .xorReg _ _, hbits, _ => decode_packXYN xorReg_decodesAs hbits
  | .addReg _ _, hbits, _ => decode_packXYN addReg_decodesAs hbits
  | .sub _ _, hbits, _ => decode_packXYN sub_decodesAs hbits
  | .shr _ _, hbits, _ => decode_packXYN shr_decodesAs hbits
  | .subn _ _, hbits, _ => decode_packXYN subn_decodesAs hbits
  | .shl _ _, hbits, _ => decode_packXYN shl_decodesAs hbits
  | .sneReg _ _, hbits, _ => decode_packXYN sneReg_decodesAs hbits
  | .ldI _, hbits, hnnn => decode_packNNN ldI_decodesAs hbits hnnn
  | .jpV0 _, hbits, hnnn => decode_packNNN jpV0_decodesAs hbits hnnn
  | .rnd _ _, hbits, _ => decode_packXKK rnd_decodesAs hbits
  | .drw _ _ _, hbits, hn => decode_packXYN_n drw_decodesAs hbits hn
  | .skp _, hbits, _ => decode_packXKK_x skp_decodesAs hbits
  | .sknp _, hbits, _ => decode_packXKK_x sknp_decodesAs hbits
  | .ldFromDT _, hbits, _ => decode_packXKK_x ldFromDT_decodesAs hbits
  | .ldKey _, hbits, _ => decode_packXKK_x ldKey_decodesAs hbits
  | .ldDT _, hbits, _ => decode_packXKK_x ldDT_decodesAs hbits
  | .ldST _, hbits, _ => decode_packXKK_x ldST_decodesAs hbits
  | .addI _, hbits, _ => decode_packXKK_x addI_decodesAs hbits
  | .ldF _, hbits, _ => decode_packXKK_x ldF_decodesAs hbits
  | .ldB _, hbits, _ => decode_packXKK_x ldB_decodesAs hbits
  | .storeRegs _, hbits, _ => decode_packXKK_x storeRegs_decodesAs hbits
  | .loadRegs _, hbits, _ => decode_packXKK_x loadRegs_decodesAs hbits

/-- The bytes of an instruction in memory order form its word (20_memory.md R56). -/
theorem decodeBytes_encodeBytes (i : Instr) (hwf : i.wellFormed = true) (rest : List Byte) :
    decodeBytes (encodeBytes i ++ rest) = .ok (i, rest) := by
  simp only [encodeBytes, List.cons_append, List.nil_append, decodeBytes, wordOfBytes_hi_lo, decode_encode i hwf]

/-! ### The operands of a decoded instruction -/

section Operands

variable {w : Word} {i : Instr}

/-- A decoded instruction is its row's instruction with the operands taken from the word. -/
theorem eq_of_decode_of_decodesAs (h : decode w = .ok i) {instr : Word → Instr}
    (hrow : DecodesAs i.row.mask i.row.value instr) : i = instr w :=
  Except.ok.inj (h.symm.trans (hrow w (of_decide_eq_true (row_matches_of_decode h))))

/-- Only the 12-bit immediates and the count can be out of range, and both come from the word's fields. -/
theorem wellFormed_of_decode (h : decode w = .ok i) : i.wellFormed = true := by
  have hnnn : fitsNNN (fieldNNN w) = true := decide_eq_true (fieldNNN_lt w)
  cases i with
  | jp nnn => rw [eq_of_decode_of_decodesAs h jp_decodesAs]; exact hnnn
  | call nnn => rw [eq_of_decode_of_decodesAs h call_decodesAs]; exact hnnn
  | ldI nnn => rw [eq_of_decode_of_decodesAs h ldI_decodesAs]; exact hnnn
  | jpV0 nnn => rw [eq_of_decode_of_decodesAs h jpV0_decodesAs]; exact hnnn
  | drw x y n => rw [eq_of_decode_of_decodesAs h drw_decodesAs]; exact decide_eq_true (fieldN_lt w)
  | _ => rfl

end Operands

/-! ### The gap sets (30_encoding.md R88), in the fields of a word -/

/-- The digits that put a word into each gap set. -/
def InGapSet (g : Gap) (w : Word) : Prop :=
  match g with
  | .family0 => fieldOp w = 0x0 ∧ w ≠ 0x00E0 ∧ w ≠ 0x00EE
  | .family5 => fieldOp w = 0x5 ∧ fieldN w ≠ 0
  | .family8 => fieldOp w = 0x8 ∧ fieldN w ∈ [0x8, 0x9, 0xA, 0xB, 0xC, 0xD, 0xF]
  | .family9 => fieldOp w = 0x9 ∧ fieldN w ≠ 0
  | .familyE => fieldOp w = 0xE ∧ (fieldKK w).toNat ∉ [0x9E, 0xA1]
  | .familyF => fieldOp w = 0xF ∧ (fieldKK w).toNat ∉ [0x07, 0x0A, 0x15, 0x18, 0x1E, 0x29, 0x33, 0x55, 0x65]

section Gaps

variable {w : Word} {g : Gap}

theorem inGapSet_of_decodeFamily0 (hop : fieldOp w = 0x0) (h : decodeFamily0 w = .error g) : InGapSet g w := by
  unfold decodeFamily0 at h
  split_ifs at h with hcls hret
  cases h
  exact ⟨hop, hcls, hret⟩

theorem inGapSet_of_decodeFamily8 (hop : fieldOp w = 0x8) (h : decodeFamily8 w = .error g) : InGapSet g w := by
  unfold decodeFamily8 at h
  split at h <;> cases h
  have := fieldN_lt w
  refine ⟨hop, ?_⟩
  simp only [imp_false, List.mem_cons, List.not_mem_nil, or_false] at *
  omega

theorem inGapSet_of_decodeFamilyE (hop : fieldOp w = 0xE) (h : decodeFamilyE w = .error g) : InGapSet g w := by
  unfold decodeFamilyE at h
  split at h <;> cases h
  refine ⟨hop, ?_⟩
  simp_all

theorem inGapSet_of_decodeFamilyF (hop : fieldOp w = 0xF) (h : decodeFamilyF w = .error g) : InGapSet g w := by
  unfold decodeFamilyF at h
  split at h <;> cases h
  refine ⟨hop, ?_⟩
  simp_all

theorem inGapSet_of_decode (h : decode w = .error g) : InGapSet g w := by
  unfold decode at h
  split at h
  case h_1 hop => exact inGapSet_of_decodeFamily0 hop h
  case h_6 hop =>
    split_ifs at h with hn
    cases h; exact ⟨hop, hn⟩
  case h_9 hop => exact inGapSet_of_decodeFamily8 hop h
  case h_10 hop =>
    split_ifs at h with hn
    cases h; exact ⟨hop, hn⟩
  case h_15 hop => exact inGapSet_of_decodeFamilyE hop h
  case h_16 =>
    have hop : fieldOp w = 0xF := by
      have := fieldOp_lt w
      simp only [imp_false] at *
      omega
    exact inGapSet_of_decodeFamilyF hop h
  all_goals cases h

theorem decode_of_inGapSet (h : InGapSet g w) : decode w = .error g := by
  cases g with
  | family0 =>
    obtain ⟨hop, hcls, hret⟩ := h
    simp only [decode, hop, decodeFamily0, if_neg hcls, if_neg hret]
  | family5 => exact decode_family5_gap h.1 h.2
  | family8 =>
    obtain ⟨hop, hn⟩ := h
    simp only [List.mem_cons, List.not_mem_nil, or_false] at hn
    rcases hn with hn | hn | hn | hn | hn | hn | hn <;> simp [decode, decodeFamily8, hop, hn]
  | family9 => exact decode_family9_gap h.1 h.2
  | familyE =>
    obtain ⟨hop, hkk⟩ := h
    simp only [List.mem_cons, List.not_mem_nil, or_false, not_or] at hkk
    simp [decode, decodeFamilyE, hop, hkk]
  | familyF =>
    obtain ⟨hop, hkk⟩ := h
    simp only [List.mem_cons, List.not_mem_nil, or_false, not_or] at hkk
    simp [decode, decodeFamilyF, hop, hkk]

theorem decode_eq_error_iff : decode w = .error g ↔ InGapSet g w := ⟨inGapSet_of_decode, decode_of_inGapSet⟩

end Gaps

end Sys2Proof.Proofs
end

section
/-! PROOFS. The obligations about decoding and encoding every word and every instruction (30_encoding.md). -/

namespace Sys2Proof.Proofs

/-- Settles O1: the encoding has the fixed bits of the instruction's row, and its fields are the operands. -/
theorem decodeOfEncodeIsTheInstruction : Obligations.DecodeOfEncodeIsTheInstruction :=
  fun i hwf => ⟨decode_encode i hwf, decodeBytes_encodeBytes i hwf⟩

/-- Settles O2: the operands are fields of the word, so they are in range, and the layout of the fields is the word. -/
theorem encodeOfDecodeIsTheWord : Obligations.EncodeOfDecodeIsTheWord :=
  fun _ _ h => ⟨wellFormed_of_decode h, encode_of_decode h⟩

/-- Settles O4: each gap set in the fields of a word, with the fields read as digits of its number. -/
theorem decodeGapsAreTheSixSets : Obligations.DecodeGapsAreTheSixSets := by
  intro w
  have hfamily0 : w.toNat / 4096 = 0 ↔ w.toNat ≤ 0x0FFF := by omega
  simp only [decode_eq_error_iff, InGapSet, fieldOp_eq, fieldN_eq, fieldKK_toNat, hfamily0, ne_eq, ← BitVec.toNat_inj,
    and_true]
  exact Iff.rfl

/-- Settles O5: the decoder evaluated on each word. -/
theorem wordsWrittenFromTheMapDecode : Obligations.WordsWrittenFromTheMapDecode := by
  unfold Obligations.WordsWrittenFromTheMapDecode
  decide

end Sys2Proof.Proofs
end

section
/-! SUPPORT. The frame of a write of one component, for every component; each instruction that can end in two ways, as
one equation for each way; and the frames of the shared ends of instructions. -/

namespace Sys2Proof.Proofs

open Sys2Proof.Machine

/-! ### One component copied from another state -/

/-- State `s` with component `f` of state `t`. -/
def copyField (f : Machine.Field) (s t : State) : State :=
  match f with
  | .mem => { s with mem := t.mem }
  | .V => { s with V := t.V }
  | .I => { s with I := t.I }
  | .stack => { s with stack := t.stack }
  | .sp => { s with sp := t.sp }
  | .DT => { s with DT := t.DT }
  | .ST => { s with ST := t.ST }
  | .fb => { s with fb := t.fb }
  | .key => { s with key := t.key }
  | .mode => { s with mode := t.mode }
  | .draws => { s with draws := t.draws }

/-- A write of one component changes no other: of each pair of components, one is written and the other is a projection
that the record update leaves. -/
theorem onlyChanges_copyField (f : Machine.Field) (s t : State) : OnlyChanges [f] s (copyField f s t) := by
  intro g hg
  have hgf : g ≠ f := fun h => hg (h ▸ List.mem_cons_self)
  cases g <;> cases f <;> simp_all [Field.same, copyField, State.memRead, State.readV]

theorem onlyChanges_mem (s : State) (m : Memory) : OnlyChanges [.mem] s { s with mem := m } :=
  onlyChanges_copyField .mem s { s with mem := m }

theorem onlyChanges_V (s : State) (V : Vector Byte 16) : OnlyChanges [.V] s { s with V := V } :=
  onlyChanges_copyField .V s { s with V := V }

theorem onlyChanges_stack (s : State) (stack : Vector Word 16) : OnlyChanges [.stack] s { s with stack := stack } :=
  onlyChanges_copyField .stack s { s with stack := stack }

theorem onlyChanges_sp (s : State) (sp : Fin 17) : OnlyChanges [.sp] s { s with sp := sp } :=
  onlyChanges_copyField .sp s { s with sp := sp }

theorem onlyChanges_key (s : State) (key : Keypad) : OnlyChanges [.key] s { s with key := key } :=
  onlyChanges_copyField .key s { s with key := key }

theorem onlyChanges_mode (s : State) (mode : Mode) : OnlyChanges [.mode] s { s with mode := mode } :=
  onlyChanges_copyField .mode s { s with mode := mode }

theorem onlyChanges_draws (s : State) (d : Nat) : OnlyChanges [.draws] s { s with draws := d } :=
  onlyChanges_copyField .draws s { s with draws := d }

theorem onlyChanges_mono {fs gs : List Machine.Field} {s t : State} (h : OnlyChanges fs s t) (hsub : fs ⊆ gs) :
    OnlyChanges gs s t :=
  fun f hf => h f fun hmem => hf (hsub hmem)

/-! ### The shared ends of instructions -/

theorem onlyChanges_finishV (s : State) (x : Reg) (v : Byte) : OnlyChanges [.V] s (s.finishV x v) :=
  onlyChanges_advance (onlyChanges_writeV s x v) 2

theorem onlyChanges_finishVFlag (s : State) (x : Reg) (flag v : Byte) : OnlyChanges [.V] s (s.finishVFlag x flag v) :=
  onlyChanges_advance
    (onlyChanges_mono (onlyChanges_trans (onlyChanges_writeV s VF flag) (onlyChanges_writeV _ x v)) (by simp)) 2

theorem onlyChanges_memWriteBytes_advance (s : State) (base : Nat) (bs : List Byte) (k : Word) :
    OnlyChanges [.mem] s ((s.memWriteBytes base bs).advance k) :=
  onlyChanges_advance (onlyChanges_mem s _) k

theorem onlyChanges_writeVFrom_advance (s : State) (n : Nat) (bs : List Byte) (k : Word) :
    OnlyChanges [.V] s ((s.writeVFrom n bs).advance k) := by
  rw [State.writeVFrom_eq]
  exact onlyChanges_advance (onlyChanges_V s _) k

/-- A completed key read changes the register and no more. -/
theorem onlyChanges_completeKey (s : State) (x k : Reg) : OnlyChanges [.V] s (s.completeKey x k) :=
  onlyChanges_finishV s x (keyByte k)

/-- Everything `RaisedFault` asks of a fault (60_exceptions.md R222). -/
theorem raisedFault_raise (s : State) (kind : FaultKind) (opcode : Word) :
    RaisedFault kind opcode s (s.raise kind opcode) :=
  ⟨rfl, rfl, onlyChanges_mode s _⟩

/-! ### The instructions that can end in two ways -/

/-- The state in which a call with a free slot ends (41_control_flow.md R123). -/
def callState (nnn : Word) (s : State) (h : s.sp.val < 16) : State :=
  { s with stack := s.stack.set s.sp.val (s.pc + 2), sp := ⟨s.sp.val + 1, by omega⟩, pc := nnn }

theorem exec_call_free (nnn : Word) (s : State) (h : s.sp.val < 16) :
    exec (.call nnn) s = .next (callState nnn s h) := by
  simp only [exec, execCall, (State.push_eq_some s _ (s.pc + 2)).2 ⟨h, rfl⟩]
  rfl

theorem exec_call_full (nnn : Word) (s : State) (h : s.sp.val = 16) :
    exec (.call nnn) s = .next (s.raise .stackOverflow (encode (.call nnn))) := by
  simp only [exec, execCall, (State.push_eq_none s (s.pc + 2)).2 h]

/-- The state in which a return with a frame on the stack ends (41_control_flow.md R121). -/
def retState (s : State) (h : 0 < s.sp.val) : State :=
  { s with sp := ⟨s.sp.val - 1, by omega⟩, pc := s.stack[s.sp.val - 1]'(by omega) }

theorem exec_ret_occupied (s : State) (h : 0 < s.sp.val) : exec .ret s = .next (retState s h) := by
  simp only [exec, execRet, (State.pop_eq_some s _ _).2 ⟨h, rfl, rfl⟩]
  rfl

theorem exec_ret_empty (s : State) (h : s.sp.val = 0) :
    exec .ret s = .next (s.raise .stackUnderflow (encode .ret)) := by
  simp only [exec, execRet, (State.pop_eq_none s).2 h]

theorem exec_skp_key {x k : Reg} {s : State} (h : (s.readV x).toNat = k.val) :
    exec (.skp x) s = .next (s.skipIf s.key[k.val]) := by
  simp only [exec, execSkp, (keyIndex_eq_some _ k).2 h]

theorem exec_skp_range {x : Reg} {s : State} (h : 15 < (s.readV x).toNat) :
    exec (.skp x) s = .next (s.raise .keyIndexRange (encode (.skp x))) := by
  simp only [exec, execSkp, (keyIndex_eq_none _).2 h]

theorem exec_sknp_key {x k : Reg} {s : State} (h : (s.readV x).toNat = k.val) :
    exec (.sknp x) s = .next (s.skipIf (!s.key[k.val])) := by
  simp only [exec, execSknp, (keyIndex_eq_some _ k).2 h]

theorem exec_sknp_range {x : Reg} {s : State} (h : 15 < (s.readV x).toNat) :
    exec (.sknp x) s = .next (s.raise .keyIndexRange (encode (.sknp x))) := by
  simp only [exec, execSknp, (keyIndex_eq_none _).2 h]

theorem exec_ldKey_pressed {x k : Reg} {s : State} (h : leastPressed s.key = some k) :
    exec (.ldKey x) s = .next (s.completeKey x k) := by
  simp only [exec, execLdKey, h]

theorem exec_ldKey_none {x : Reg} {s : State} (h : leastPressed s.key = none) :
    exec (.ldKey x) s = .next { s with mode := .awaitKey x } := by
  simp only [exec, execLdKey, h]

theorem call_cases (nnn : Word) (s : State) :
    (∃ h : s.sp.val < 16, exec (.call nnn) s = .next (callState nnn s h)) ∨
    (s.sp.val = 16 ∧ exec (.call nnn) s = .next (s.raise .stackOverflow (encode (.call nnn)))) := by
  rcases Nat.lt_or_ge s.sp.val 16 with h | h
  · exact .inl ⟨h, exec_call_free nnn s h⟩
  · have hfull : s.sp.val = 16 := by omega
    exact .inr ⟨hfull, exec_call_full nnn s hfull⟩

theorem ret_cases (s : State) :
    (∃ h : 0 < s.sp.val, exec .ret s = .next (retState s h)) ∨
    (s.sp.val = 0 ∧ exec .ret s = .next (s.raise .stackUnderflow (encode .ret))) := by
  rcases Nat.eq_zero_or_pos s.sp.val with h | h
  · exact .inr ⟨h, exec_ret_empty s h⟩
  · exact .inl ⟨h, exec_ret_occupied s h⟩

theorem skp_cases (x : Reg) (s : State) :
    (∃ k : Reg, (s.readV x).toNat = k.val ∧ exec (.skp x) s = .next (s.skipIf s.key[k.val])) ∨
    (15 < (s.readV x).toNat ∧ exec (.skp x) s = .next (s.raise .keyIndexRange (encode (.skp x)))) := by
  rcases Nat.lt_or_ge 15 (s.readV x).toNat with h | h
  · exact .inr ⟨h, exec_skp_range h⟩
  · exact .inl ⟨⟨(s.readV x).toNat, by omega⟩, rfl, exec_skp_key rfl⟩

theorem sknp_cases (x : Reg) (s : State) :
    (∃ k : Reg, (s.readV x).toNat = k.val ∧ exec (.sknp x) s = .next (s.skipIf (!s.key[k.val]))) ∨
    (15 < (s.readV x).toNat ∧ exec (.sknp x) s = .next (s.raise .keyIndexRange (encode (.sknp x)))) := by
  rcases Nat.lt_or_ge 15 (s.readV x).toNat with h | h
  · exact .inr ⟨h, exec_sknp_range h⟩
  · exact .inl ⟨⟨(s.readV x).toNat, by omega⟩, rfl, exec_sknp_key rfl⟩

theorem ldKey_cases (x : Reg) (s : State) :
    (∃ k, leastPressed s.key = some k ∧ exec (.ldKey x) s = .next (s.completeKey x k)) ∨
    (leastPressed s.key = none ∧ exec (.ldKey x) s = .next { s with mode := .awaitKey x }) := by
  cases h : leastPressed s.key with
  | some k => exact .inl ⟨k, rfl, exec_ldKey_pressed h⟩
  | none => exact .inr ⟨rfl, exec_ldKey_none h⟩

/-- The frame of an equation that says in which state an instruction ends. -/
theorem onlyChanges_of_exec {i : Instr} {s t u : State} {fs gs : List Machine.Field} (hexec : exec i s = .next u)
    (h : exec i s = .next t) (hu : OnlyChanges fs s u) (hsub : fs ⊆ gs) : OnlyChanges gs s t := by
  cases hexec.symm.trans h
  exact onlyChanges_mono hu hsub

theorem onlyChanges_callState (nnn : Word) (s : State) (h : s.sp.val < 16) :
    OnlyChanges [.stack, .sp] s (callState nnn s h) :=
  onlyChanges_setPc (onlyChanges_trans (onlyChanges_stack s (s.stack.set s.sp.val (s.pc + 2))) (onlyChanges_sp _ _)) nnn

theorem onlyChanges_retState (s : State) (h : 0 < s.sp.val) : OnlyChanges [.sp] s (retState s h) :=
  onlyChanges_setPc (onlyChanges_sp s ⟨s.sp.val - 1, by omega⟩) (s.stack[s.sp.val - 1]'(by omega))

/-- The frame rule, instruction by instruction (10_state.md R44). -/
theorem exec_onlyChanges (i : Instr) (s t : State) (h : exec i s = .next t) : OnlyChanges (mayWrite i) s t := by
  cases i with
  | cls => cases h; exact onlyChanges_advance (onlyChanges_fb s _) 2
  | ret =>
    obtain ⟨hsp, hexec⟩ | ⟨-, hexec⟩ := ret_cases s
    · exact onlyChanges_of_exec hexec h (onlyChanges_retState s hsp) (by simp [mayWrite])
    · exact onlyChanges_of_exec hexec h (onlyChanges_mode s _) (by simp [mayWrite])
  | call nnn =>
    obtain ⟨hsp, hexec⟩ | ⟨-, hexec⟩ := call_cases nnn s
    · exact onlyChanges_of_exec hexec h (onlyChanges_callState nnn s hsp) (by simp [mayWrite])
    · exact onlyChanges_of_exec hexec h (onlyChanges_mode s _) (by simp [mayWrite])
  | jp | jpV0 => cases h; exact onlyChanges_setPc (onlyChanges_refl _ s) _
  | seImm | sneImm | seReg | sneReg => cases h; exact onlyChanges_skipIf s _
  | ldImm | addImm | ldReg | orReg | andReg | xorReg | ldFromDT => cases h; exact onlyChanges_finishV s _ _
  | addReg | sub | shr | subn | shl => cases h; exact onlyChanges_finishVFlag s _ _ _
  | ldI | addI | ldF => cases h; exact onlyChanges_writeI_advance s _ 2
  | rnd x kk =>
    cases h
    exact onlyChanges_mono (onlyChanges_trans (onlyChanges_draws s _) (onlyChanges_finishV _ x _)) (by simp [mayWrite])
  | drw => cases h; exact onlyChanges_advance (onlyChanges_trans (onlyChanges_fb s _) (onlyChanges_writeV _ VF _)) 2
  | skp x =>
    obtain ⟨k, -, hexec⟩ | ⟨-, hexec⟩ := skp_cases x s
    · exact onlyChanges_of_exec hexec h (onlyChanges_skipIf s _) (by simp)
    · exact onlyChanges_of_exec hexec h (onlyChanges_mode s _) (by simp [mayWrite])
  | sknp x =>
    obtain ⟨k, -, hexec⟩ | ⟨-, hexec⟩ := sknp_cases x s
    · exact onlyChanges_of_exec hexec h (onlyChanges_skipIf s _) (by simp)
    · exact onlyChanges_of_exec hexec h (onlyChanges_mode s _) (by simp [mayWrite])
  | ldKey x =>
    obtain ⟨k, -, hexec⟩ | ⟨-, hexec⟩ := ldKey_cases x s
    · exact onlyChanges_of_exec hexec h (onlyChanges_completeKey s x k) (by simp [mayWrite])
    · exact onlyChanges_of_exec hexec h (onlyChanges_mode s _) (by simp [mayWrite])
  | ldDT => cases h; exact onlyChanges_advance (onlyChanges_DT s _) 2
  | ldST => cases h; exact onlyChanges_advance (onlyChanges_ST s _) 2
  | ldB | storeRegs => cases h; exact onlyChanges_memWriteBytes_advance s _ _ 2
  | loadRegs => cases h; exact onlyChanges_writeVFrom_advance s _ _ 2

end Sys2Proof.Proofs
end

section
/-! SUPPORT. What every instruction keeps beyond its frame: registers, the canonical form of memory, and the choice of
the random draw. -/

namespace Sys2Proof.Proofs

open Sys2Proof.Machine

/-- Every instruction has a next state: each of the two-way ones in both ways. -/
theorem exec_next (i : Instr) (s : State) : ∃ t, exec i s = .next t := by
  cases i with
  | ret => obtain ⟨_, hexec⟩ | ⟨-, hexec⟩ := ret_cases s <;> exact ⟨_, hexec⟩
  | call nnn => obtain ⟨_, hexec⟩ | ⟨-, hexec⟩ := call_cases nnn s <;> exact ⟨_, hexec⟩
  | skp x => obtain ⟨_, -, hexec⟩ | ⟨-, hexec⟩ := skp_cases x s <;> exact ⟨_, hexec⟩
  | sknp x => obtain ⟨_, -, hexec⟩ | ⟨-, hexec⟩ := sknp_cases x s <;> exact ⟨_, hexec⟩
  | ldKey x => obtain ⟨_, -, hexec⟩ | ⟨-, hexec⟩ := ldKey_cases x s <;> exact ⟨_, hexec⟩
  | _ => exact ⟨_, rfl⟩

/-! ### Registers (10_state.md R22) -/

theorem readV_of_exec_finishV {i : Instr} {s t : State} {x r : Reg} {v : Byte}
    (hexec : exec i s = .next (s.finishV x v)) (h : exec i s = .next t) (hr : (r == x) = false) :
    t.readV r = s.readV r := by
  cases hexec.symm.trans h
  rw [State.readV_finishV, if_neg (by simpa using hr)]

theorem readV_of_exec_finishVFlag {i : Instr} {s t : State} {x r : Reg} {flag v : Byte}
    (hexec : exec i s = .next (s.finishVFlag x flag v)) (h : exec i s = .next t) (hr : (r == x || r == VF) = false) :
    t.readV r = s.readV r := by
  cases hexec.symm.trans h
  obtain ⟨hx, hvf⟩ : r ≠ x ∧ r ≠ VF := by simpa using hr
  rw [State.readV_finishVFlag, if_neg hx, if_neg hvf]

/-- The registers `V[0]` to `V[x]` are the only ones a load of bytes from `I` on writes (43_index_memory.md R176). -/
theorem readV_loadRegs (s : State) (x r : Reg) :
    (s.writeVFrom 0 (s.memReadBytes (s.indexAddr 0) (x.val + 1))).readV r =
      if r ≤ x then s.memRead (s.indexAddr r.val) else s.readV r := by
  rw [State.readV_writeVFrom]
  by_cases h : r ≤ x
  · rw [if_pos h, dif_pos ⟨Nat.zero_le _, by simpa [State.memReadBytes] using Nat.lt_succ_of_le h⟩]
    exact Memory.readBytes_getElem _ _ _ _ _
  · rw [if_neg h, dif_neg]
    rintro ⟨-, hlt⟩
    exact h (Nat.le_of_lt_succ (by simpa [State.memReadBytes] using hlt))

/-- The register frame: by the component frame for the instructions that write no register at all. -/
theorem readV_of_exec (i : Instr) (s t : State) (r : Reg) (h : exec i s = .next t) (hr : mayWriteReg i r = false) :
    t.readV r = s.readV r := by
  by_cases hV : .V ∈ mayWrite i
  case neg => exact exec_onlyChanges i s t h .V hV r
  cases i with
  | ldImm | addImm | ldReg | orReg | andReg | xorReg | ldFromDT => exact readV_of_exec_finishV rfl h hr
  | addReg | sub | shr | subn | shl => exact readV_of_exec_finishVFlag rfl h hr
  | rnd x kk =>
    cases h
    exact (State.readV_finishV _ x r _).trans (if_neg (by simpa [mayWriteReg] using hr))
  | drw x y n =>
    cases h
    exact (State.readV_writeV _ VF r _).trans (if_neg (by simpa [mayWriteReg] using hr))
  | ldKey x =>
    obtain ⟨k, -, hexec⟩ | ⟨-, hexec⟩ := ldKey_cases x s
    · exact readV_of_exec_finishV hexec h hr
    · cases hexec.symm.trans h; rfl
  | loadRegs x =>
    cases h
    exact (readV_loadRegs s x r).trans (if_neg (by simpa [mayWriteReg] using hr))
  | _ => simp [mayWrite] at hV

/-! ### Memory -/

/-- Only `LD B, Vx` and `LD [I], Vx` touch memory, each by one block write, which keeps the canonical form. -/
theorem mem_wf_of_exec (i : Instr) (s t : State) (h : exec i s = .next t) (hwf : Memory.wf s.mem) :
    Memory.wf t.mem := by
  cases i with
  | ldB | storeRegs => cases h; exact Memory.writeBytes_wf _ _ _ hwf
  | loadRegs x => cases h; rw [State.writeVFrom_eq]; exact hwf
  | ret => obtain ⟨_, hexec⟩ | ⟨-, hexec⟩ := ret_cases s <;> (cases hexec.symm.trans h; exact hwf)
  | call nnn => obtain ⟨_, hexec⟩ | ⟨-, hexec⟩ := call_cases nnn s <;> (cases hexec.symm.trans h; exact hwf)
  | skp x => obtain ⟨_, -, hexec⟩ | ⟨-, hexec⟩ := skp_cases x s <;> (cases hexec.symm.trans h; exact hwf)
  | sknp x => obtain ⟨_, -, hexec⟩ | ⟨-, hexec⟩ := sknp_cases x s <;> (cases hexec.symm.trans h; exact hwf)
  | ldKey x => obtain ⟨_, -, hexec⟩ | ⟨-, hexec⟩ := ldKey_cases x s <;> (cases hexec.symm.trans h; exact hwf)
  | _ => cases h; exact hwf

/-! ### The random draw (10_state.md R34) -/

theorem writeVFrom_withDraws (bs : List Byte) (s : State) (k d : Nat) :
    ({ s with draws := d }).writeVFrom k bs = { s.writeVFrom k bs with draws := d } := by
  induction bs generalizing s k with
  | nil => rfl
  | cons b rest ih => exact ih { s with V := s.V.setIfInBounds k b } (k + 1)

/-- No instruction but RND reads the draw number: each does the same on it whatever it is. -/
theorem exec_withDraws (i : Instr) (s t : State) (d : Nat) (hrnd : ∀ x kk, i ≠ .rnd x kk) (h : exec i s = .next t) :
    exec i { s with draws := d } = .next { t with draws := d } := by
  cases i with
  | rnd x kk => exact absurd rfl (hrnd x kk)
  | loadRegs x =>
    cases h
    exact congrArg (fun u : State => Host.Outcome.next (u.advance 2)) (writeVFrom_withDraws _ s 0 d)
  | ret =>
    obtain ⟨hsp, hexec⟩ | ⟨hsp, hexec⟩ := ret_cases s <;> cases hexec.symm.trans h
    · exact exec_ret_occupied { s with draws := d } hsp
    · exact exec_ret_empty { s with draws := d } hsp
  | call nnn =>
    obtain ⟨hsp, hexec⟩ | ⟨hsp, hexec⟩ := call_cases nnn s <;> cases hexec.symm.trans h
    · exact exec_call_free nnn { s with draws := d } hsp
    · exact exec_call_full nnn { s with draws := d } hsp
  | skp x =>
    obtain ⟨k, hk, hexec⟩ | ⟨hrange, hexec⟩ := skp_cases x s <;> cases hexec.symm.trans h
    · exact exec_skp_key (s := { s with draws := d }) hk
    · exact exec_skp_range (s := { s with draws := d }) hrange
  | sknp x =>
    obtain ⟨k, hk, hexec⟩ | ⟨hrange, hexec⟩ := sknp_cases x s <;> cases hexec.symm.trans h
    · exact exec_sknp_key (s := { s with draws := d }) hk
    · exact exec_sknp_range (s := { s with draws := d }) hrange
  | ldKey x =>
    obtain ⟨k, hk, hexec⟩ | ⟨hnone, hexec⟩ := ldKey_cases x s <;> cases hexec.symm.trans h
    · exact exec_ldKey_pressed (s := { s with draws := d }) hk
    · exact exec_ldKey_none (s := { s with draws := d }) hnone
  | _ => cases h; rfl

end Sys2Proof.Proofs
end

section
/-! PROOFS. The obligations about every instruction at once (10_state.md). -/

namespace Sys2Proof.Proofs

/-- Settles O15: each instruction's next state is a composition of writes of its own components. -/
theorem instructionsChangeOnlyTheirComponents : Obligations.InstructionsChangeOnlyTheirComponents := exec_onlyChanges

/-- Settles O16: by the frame where no register is written, else by what the instruction's register writes leave. -/
theorem instructionsWriteOnlyTheirRegisters : Obligations.InstructionsWriteOnlyTheirRegisters := readV_of_exec

/-- Settles O17: the equation of every other instruction holds with any draw number. -/
theorem onlyRandomDependsOnTheDraw : Obligations.OnlyRandomDependsOnTheDraw := exec_withDraws

end Sys2Proof.Proofs
end

section
/-! SUPPORT. What one step does in each mode, and when and how a running step faults. -/

namespace Sys2Proof.Proofs

open Sys2Proof.Machine

/-! ### A step, by the mode it starts in (40_engine_cycle.md R100) -/

section Step

variable {s t : State} {info : FaultInfo} {kind : FaultKind} {i : Instr}

theorem step_faulted (hmode : s.mode = .faulted info) : step s = .next s := by
  simp only [step, hmode]

theorem step_awaitKey {x : Reg} (hmode : s.mode = .awaitKey x) : step s = .next (s.awaitStep x) := by
  simp only [step, hmode]

theorem step_running (hmode : s.mode = .running) (hdecode : decode s.fetchWord = .ok i) : step s = exec i s := by
  simp only [step, hmode, State.runStep, hdecode]

theorem step_gap {g : Gap} (hmode : s.mode = .running) (hdecode : decode s.fetchWord = .error g) :
    step s = .next (s.raise .decodeGap s.fetchWord) := by
  simp only [step, hmode, State.runStep, hdecode]

/-- The state in which a waiting step with key `k` pressed ends (45_keys_timers.md R204). -/
def wokenState (s : State) (x k : Reg) : State := { s.completeKey x k with mode := .running }

theorem awaitStep_none {x : Reg} (h : leastPressed s.key = none) : s.awaitStep x = s := by
  simp only [State.awaitStep, h]

theorem awaitStep_pressed {x k : Reg} (h : leastPressed s.key = some k) :
    s.awaitStep x = wokenState s x k := by
  simp only [State.awaitStep, h, wokenState]

/-- Everything a waiting step can do (45_keys_timers.md R204). -/
theorem awaitStep_cases (s : State) (x : Reg) :
    s.awaitStep x = s ∨ ∃ k, s.awaitStep x = wokenState s x k := by
  cases h : leastPressed s.key with
  | none => exact .inl (awaitStep_none h)
  | some k => exact .inr ⟨k, awaitStep_pressed h⟩

theorem step_next (s : State) : ∃ t, step s = .next t := by
  cases hmode : s.mode with
  | faulted info => exact ⟨s, step_faulted hmode⟩
  | awaitKey x => exact ⟨s.awaitStep x, step_awaitKey hmode⟩
  | running =>
    cases hdecode : decode s.fetchWord with
    | error g => exact ⟨_, step_gap hmode hdecode⟩
    | ok i => exact step_running hmode hdecode ▸ exec_next i s

/-! ### When an instruction faults (60_exceptions.md R220) -/

/-- The condition of each kind of fault, for a word that decodes to `decoded` in state `s`. -/
def FaultCondition (kind : FaultKind) (decoded : Except Gap Instr) (s : State) : Prop :=
  match kind with
  | .decodeGap => ∃ g, decoded = .error g
  | .stackOverflow => s.sp.val = 16 ∧ ∃ nnn, decoded = .ok (.call nnn)
  | .stackUnderflow => s.sp.val = 0 ∧ decoded = .ok .ret
  | .keyIndexRange => ∃ x, 15 < (s.readV x).toNat ∧ (decoded = .ok (.skp x) ∨ decoded = .ok (.sknp x))

theorem exec_of_faultCondition (h : FaultCondition kind (.ok i) s) : exec i s = .next (s.raise kind (encode i)) := by
  cases kind with
  | decodeGap => obtain ⟨g, hg⟩ := h; cases hg
  | stackOverflow => obtain ⟨hsp, nnn, hi⟩ := h; cases hi; exact exec_call_full nnn s hsp
  | stackUnderflow => obtain ⟨hsp, hi⟩ := h; cases hi; exact exec_ret_empty s hsp
  | keyIndexRange =>
    obtain ⟨x, hx, hi | hi⟩ := h <;> cases hi
    · exact exec_skp_range hx
    · exact exec_sknp_range hx

/-- An instruction keeps the mode, begins a wait, or raises a fault whose condition holds: by the frame for the
instructions that do not write the mode at all. -/
theorem mode_of_exec (h : exec i s = .next t) :
    t.mode = s.mode ∨ (∃ x, t.mode = .awaitKey x) ∨
      ∃ kind, FaultCondition kind (.ok i) s ∧ t = s.raise kind (encode i) := by
  by_cases hmode : .mode ∈ mayWrite i
  case neg => exact .inl (exec_onlyChanges i s t h .mode hmode)
  cases i with
  | ret =>
    obtain ⟨hsp, hexec⟩ | ⟨hsp, hexec⟩ := ret_cases s <;> cases hexec.symm.trans h
    · exact .inl rfl
    · exact .inr (.inr ⟨.stackUnderflow, ⟨hsp, rfl⟩, rfl⟩)
  | call nnn =>
    obtain ⟨hsp, hexec⟩ | ⟨hsp, hexec⟩ := call_cases nnn s <;> cases hexec.symm.trans h
    · exact .inl rfl
    · exact .inr (.inr ⟨.stackOverflow, ⟨hsp, nnn, rfl⟩, rfl⟩)
  | skp x =>
    obtain ⟨k, -, hexec⟩ | ⟨hrange, hexec⟩ := skp_cases x s <;> cases hexec.symm.trans h
    · exact .inl rfl
    · exact .inr (.inr ⟨.keyIndexRange, ⟨x, hrange, .inl rfl⟩, rfl⟩)
  | sknp x =>
    obtain ⟨k, -, hexec⟩ | ⟨hrange, hexec⟩ := sknp_cases x s <;> cases hexec.symm.trans h
    · exact .inl rfl
    · exact .inr (.inr ⟨.keyIndexRange, ⟨x, hrange, .inr rfl⟩, rfl⟩)
  | ldKey x =>
    obtain ⟨k, -, hexec⟩ | ⟨-, hexec⟩ := ldKey_cases x s <;> cases hexec.symm.trans h
    · exact .inl rfl
    · exact .inr (.inl ⟨x, rfl⟩)
  | _ => simp [mayWrite] at hmode

/-! ### When a running step faults -/

theorem step_of_faultCondition (hmode : s.mode = .running) (h : FaultCondition kind (decode s.fetchWord) s) :
    step s = .next (s.raise kind s.fetchWord) := by
  cases hdecode : decode s.fetchWord with
  | ok i =>
    rw [hdecode] at h
    rw [step_running hmode hdecode, exec_of_faultCondition h, encode_of_decode hdecode]
  | error g =>
    rw [hdecode] at h
    cases kind with
    | decodeGap => exact step_gap hmode hdecode
    | stackOverflow => obtain ⟨-, nnn, hg⟩ := h; cases hg
    | stackUnderflow => obtain ⟨-, hg⟩ := h; cases hg
    | keyIndexRange => obtain ⟨x, -, hg | hg⟩ := h <;> cases hg

/-- A running step that ends faulted has raised that very fault, on its condition and with the fetched word. -/
theorem faultCondition_of_step (hmode : s.mode = .running) (h : step s = .next t) (hfault : t.mode = .faulted info) :
    FaultCondition info.kind (decode s.fetchWord) s ∧ t = s.raise info.kind s.fetchWord := by
  cases hdecode : decode s.fetchWord with
  | error g =>
    cases (step_gap hmode hdecode).symm.trans h
    cases hfault
    exact ⟨⟨g, rfl⟩, rfl⟩
  | ok i =>
    have hexec : exec i s = .next t := (step_running hmode hdecode).symm.trans h
    obtain hkept | ⟨x, hwait⟩ | ⟨kind, hkind, rfl⟩ := mode_of_exec hexec
    · rw [hkept, hmode] at hfault; cases hfault
    · rw [hwait] at hfault; cases hfault
    · cases hfault
      exact ⟨hkind, by rw [encode_of_decode hdecode]⟩

theorem mem_wf_of_step (h : step s = .next t) (hwf : Memory.wf s.mem) : Memory.wf t.mem := by
  cases hmode : s.mode with
  | faulted info => cases (step_faulted hmode).symm.trans h; exact hwf
  | awaitKey x =>
    cases (step_awaitKey hmode).symm.trans h
    obtain hstay | ⟨k, hdone⟩ := awaitStep_cases s x
    · rwa [hstay]
    · rw [hdone]; exact hwf
  | running =>
    cases hdecode : decode s.fetchWord with
    | error g => cases (step_gap hmode hdecode).symm.trans h; exact hwf
    | ok i => exact mem_wf_of_exec i s t ((step_running hmode hdecode).symm.trans h) hwf

/-! ### The invariant -/

/-- A fault raised on its condition leaves a record that describes the state. -/
theorem faultRecordHolds_raise (h : FaultCondition kind (decode s.fetchWord) s) :
    FaultRecordHolds ⟨kind, s.pc, s.fetchWord⟩ (s.raise kind s.fetchWord) := by
  refine ⟨rfl, ?_⟩
  cases kind with
  | stackUnderflow => exact ⟨h.1, (encode_of_decode h.2).symm⟩
  | _ => exact h

/-- A record reads only `pc`, `sp` and the registers. -/
theorem faultRecordHolds_congr (hpc : t.pc = s.pc) (hsp : t.sp = s.sp) (hV : t.V = s.V) (h : FaultRecordHolds info s) :
    FaultRecordHolds info t := by
  unfold FaultRecordHolds at h ⊢
  simpa only [hpc, hsp, State.readV_def, hV] using h

theorem inv_of_step (hinv : Inv s) (h : step s = .next t) : Inv t := by
  obtain ⟨hwf, hrecord⟩ := hinv
  refine ⟨mem_wf_of_step h hwf, fun ⟨kind, addr, opcode⟩ hfault => ?_⟩
  cases hmode : s.mode with
  | faulted info => cases (step_faulted hmode).symm.trans h; exact hrecord _ hfault
  | awaitKey x =>
    cases (step_awaitKey hmode).symm.trans h
    obtain hstay | ⟨k, hdone⟩ := awaitStep_cases s x
    · rw [hstay, hmode] at hfault; cases hfault
    · rw [hdone] at hfault; cases hfault
  | running =>
    obtain ⟨hcond, rfl⟩ := faultCondition_of_step hmode h hfault
    cases hfault
    exact faultRecordHolds_raise hcond

theorem inv_reset : Inv State.reset := ⟨State.reset_mem_wf, fun _ hfault => nomatch hfault⟩

/-- An operation that leaves the mode and what a record reads keeps the invariant if it keeps memory's form. -/
theorem inv_of_same (hinv : Inv s) (hwf : Memory.wf t.mem) (hmode : t.mode = s.mode) (hpc : t.pc = s.pc)
    (hsp : t.sp = s.sp) (hV : t.V = s.V) : Inv t :=
  ⟨hwf, fun info hfault => faultRecordHolds_congr hpc hsp hV (hinv.2 info (hmode.symm.trans hfault))⟩

/-! ### The host operations and their schedules (60_exceptions.md R248) -/

theorem load_fits {image : List Byte} (s : State) (h : image.length ≤ Config.progMax) :
    s.load image = .ok (s.memWriteBytes Config.progBase.toNat image) :=
  if_neg (Nat.not_lt.2 h)

theorem load_tooLong {image : List Byte} (s : State) (h : Config.progMax < image.length) :
    s.load image = .error .sizeExceeded :=
  if_pos h

theorem hostOp_load_fits {image : List Byte} (s : State) (h : image.length ≤ Config.progMax) :
    hostOp (.load image) s = .next (s.memWriteBytes Config.progBase.toNat image) := by
  simp only [hostOp, load_fits s h]

theorem hostOp_load_tooLong {image : List Byte} (s : State) (h : Config.progMax < image.length) :
    hostOp (.load image) s = .next s := by
  simp only [hostOp, load_tooLong s h]

/-- Everything a load can do: copy the image or nothing (20_memory.md R66). -/
theorem hostOp_load_cases (image : List Byte) (s : State) :
    hostOp (.load image) s = .next (s.memWriteBytes Config.progBase.toNat image) ∨ hostOp (.load image) s = .next s :=
  (Nat.lt_or_ge Config.progMax image.length).symm.imp (hostOp_load_fits s) (hostOp_load_tooLong s)

theorem hostOp_next (op : HostOp) (s : State) : ∃ t, hostOp op s = .next t := by
  cases op with
  | step => exact step_next s
  | load image => obtain h | h := hostOp_load_cases image s <;> exact ⟨_, h⟩
  | tick | setKeys | reset => exact ⟨_, rfl⟩

theorem inv_of_hostOp {op : HostOp} (hinv : Inv s) (h : hostOp op s = .next t) : Inv t := by
  cases op with
  | step => exact inv_of_step hinv h
  | tick | setKeys => cases h; exact inv_of_same hinv hinv.1 rfl rfl rfl rfl
  | load image =>
    obtain hload | hload := hostOp_load_cases image s <;> cases hload.symm.trans h
    · exact inv_of_same hinv (Memory.writeBytes_wf _ _ _ hinv.1) rfl rfl rfl rfl
    · exact hinv
  | reset => cases h; exact inv_of_same inv_reset State.reset_mem_wf rfl rfl rfl rfl

theorem hostRun_cons {op : HostOp} (h : hostOp op s = .next t) (ops : List HostOp) :
    hostRun (op :: ops) s = hostRun ops t := by
  simp only [hostRun, h]

theorem hostRun_next (ops : List HostOp) (s : State) : ∃ t, hostRun ops s = .next t := by
  induction ops generalizing s with
  | nil => exact ⟨s, rfl⟩
  | cons op ops ih =>
    obtain ⟨u, hop⟩ := hostOp_next op s
    exact hostRun_cons hop ops ▸ ih u

theorem inv_of_hostRun (ops : List HostOp) (s t : State) (hinv : Inv s) (h : hostRun ops s = .next t) : Inv t := by
  induction ops generalizing s with
  | nil => cases h; exact hinv
  | cons op ops ih =>
    obtain ⟨u, hop⟩ := hostOp_next op s
    exact ih u (inv_of_hostOp hinv hop) ((hostRun_cons hop ops).symm.trans h)

end Step

end Sys2Proof.Proofs
end

section
/-! PROOFS. The obligations about totality, faults and the invariant (60_exceptions.md). -/

namespace Sys2Proof.Proofs

open Sys2Proof.Machine

/-- Settles O8: no arm of `exec` refuses, each mode's step is one of its equations, and a schedule is an induction. -/
theorem everyStateSteps : Obligations.EveryStateSteps := ⟨step_next, exec_next, hostRun_next⟩

/-- Settles O9: a running step raises a fault when its condition holds, and one that ends faulted has raised that fault.
-/
theorem stepFaultsExactlyWhen : Obligations.StepFaultsExactlyWhen := by
  rintro s t ⟨kind, addr, opcode⟩ hmode h
  have hiff : t.mode = .faulted ⟨kind, addr, opcode⟩ ↔
      addr = s.pc ∧ opcode = s.fetchWord ∧ FaultCondition kind (decode s.fetchWord) s := by
    constructor
    · intro hfault
      obtain ⟨hcond, rfl⟩ := faultCondition_of_step hmode h hfault
      cases hfault
      exact ⟨rfl, rfl, hcond⟩
    · rintro ⟨rfl, rfl, hcond⟩
      cases (step_of_faultCondition hmode hcond).symm.trans h
      rfl
  cases kind <;> exact hiff

/-- Settles O10: a running step that ends faulted is one `State.raise`. -/
theorem raisedFaultIsPrecise : Obligations.RaisedFaultIsPrecise := by
  intro s t info hmode h hfault
  obtain ⟨-, rfl⟩ := faultCondition_of_step hmode h hfault
  exact raisedFault_raise s info.kind s.fetchWord

/-- Settles O11: a faulted step is the identity, and no operation but the reset writes the mode of a faulted engine. -/
theorem faultLastsUntilReset : Obligations.FaultLastsUntilReset := by
  intro s info hmode
  refine ⟨step_faulted hmode, fun op hop => ?_, _, rfl, rfl⟩
  cases op with
  | step => exact ⟨s, step_faulted hmode, hmode⟩
  | tick | setKeys => exact ⟨_, rfl, hmode⟩
  | load image => obtain h | h := hostOp_load_cases image s <;> exact ⟨_, h, hmode⟩
  | reset => exact absurd rfl hop

/-- Settles O21: the reset memory lists nothing, and the reset mode is no fault. -/
theorem resetMeetsInvariant : Obligations.ResetMeetsInvariant := inv_reset

/-- Settles O22: a step writes memory by block writes only, and a fault it raises is raised on its condition. -/
theorem stepKeepsInvariant : Obligations.StepKeepsInvariant := fun _ _ => inv_of_step

/-- Settles O23, by induction on the schedule: every host operation keeps the invariant. -/
theorem everyScheduleKeepsInvariant : Obligations.EveryScheduleKeepsInvariant := inv_of_hostRun

end Sys2Proof.Proofs
end

section
/-! SUPPORT. A completed key read, the reported result of a step, and reads of the reset state. -/

namespace Sys2Proof.Proofs

open Sys2Proof.Machine

/-! ### Key reads (45_keys_timers.md R203, R204) -/

/-- A completed key read writes the key's number to the register and advances, as every one-register instruction does.
-/
theorem wroteReg_completeKey (s : State) (x k : Reg) : WroteReg x k.val s (s.completeKey x k) :=
  wroteReg_finishV s x (keyByte_toNat k)

/-- A waiting step with a key pressed: the read completes and the engine runs on. -/
theorem step_awaitKey_pressed {s : State} {x k : Reg} (hmode : s.mode = .awaitKey x) (hk : s.key[k.val] = true)
    (hleast : ∀ j : Reg, j < k → s.key[j.val] = false) :
    step s = .next (wokenState s x k) := by
  rw [step_awaitKey hmode, awaitStep_pressed ((leastPressed_eq_some s.key k).2 ⟨hk, hleast⟩)]

theorem step_awaitKey_none {s : State} {x : Reg} (hmode : s.mode = .awaitKey x)
    (hnone : ∀ k : Reg, s.key[k.val] = false) : step s = .next s := by
  rw [step_awaitKey hmode, awaitStep_none ((leastPressed_eq_none s.key).2 hnone)]

/-- What a waiting step that completes has written, beside the mode. -/
theorem wokenState_spec (s : State) (x k : Reg) :
    ((wokenState s x k).readV x).toNat = k.val ∧ (∀ r, r ≠ x → (wokenState s x k).readV r = s.readV r) ∧
    OnlyChanges [.V, .mode] s (wokenState s x k) := by
  obtain ⟨hvalue, hothers, -, hframe⟩ := wroteReg_completeKey s x k
  exact ⟨hvalue, hothers, onlyChanges_trans hframe (onlyChanges_mode _ .running)⟩

/-! ### The reported result (40_engine_cycle.md R100) -/

theorem stepReported_of_step {s t : State} (h : step s = .next t) :
    s.stepReported = .next (stepResult s.mode t.mode, t) := by
  simp only [State.stepReported, h]

theorem stepResult_of_not_faulted {before after : Mode} (h : ∀ info, before ≠ .faulted info) :
    (after = .running → stepResult before after = .executed) ∧
    (∀ x, after = .awaitKey x → stepResult before after = .waiting) ∧
    (∀ info, after = .faulted info → stepResult before after = .fault info) := by
  cases before with
  | faulted info => exact absurd rfl (h info)
  | running | awaitKey => refine ⟨?_, ?_, ?_⟩ <;> intros <;> subst_vars <;> rfl

/-! ### The reset state (70_reset_and_hazards.md R261) -/

/-- A byte nothing has written reads as its reset contents. -/
theorem memRead_reset {a : Nat} (h : a < 4096) : State.reset.memRead a = Memory.unlisted a :=
  congrArg Memory.unlisted (maskAddr_of_lt a h)

theorem memRead_reset_font (k : Fin 80) : State.reset.memRead (0x050 + k.val) = Config.font[k.val] := by
  have := k.isLt
  rw [memRead_reset (by omega), Memory.unlisted, dif_pos (by omega)]
  simp only [Nat.add_sub_cancel_left]

theorem memRead_reset_zero {a : Nat} (h : a < 4096) (hfont : a < 0x050 ∨ 0x0A0 ≤ a) : State.reset.memRead a = 0 := by
  rw [memRead_reset h, Memory.unlisted, dif_neg (by omega)]

theorem fetchWord_reset : State.reset.fetchWord = 0x0000 := by
  simp only [State.fetchWord]
  rw [memRead_reset_zero (by decide) (by decide), memRead_reset_zero (by decide) (by decide)]
  rfl

/-- A faulted machine does not change by stepping, however often. -/
theorem run_faulted {s : State} {info : FaultInfo} (hmode : s.mode = .faulted info) (n : Nat) :
    core.run n s = .next s := by
  induction n with
  | zero => rfl
  | succ n ih =>
    have hstep : core.step s = .next s := step_faulted hmode
    simp only [Host.Core.run, hstep, ih]

end Sys2Proof.Proofs
end

section
/-! PROOFS. The obligations about the step cycle and the reset state (40_engine_cycle.md, 70_reset_and_hazards.md). -/

namespace Sys2Proof.Proofs

open Sys2Proof.Machine

/-- Settles O6: the fetched word as a number, and the two equations of a running step. -/
theorem stepRunsTheDecodedInstruction : Obligations.StepRunsTheDecodedInstruction := fun s hmode =>
  ⟨wordOfBytes_toNat _ _, fun _ hdecode => step_running hmode hdecode,
    fun _ hdecode => ⟨_, step_gap hmode hdecode, raisedFault_raise s .decodeGap s.fetchWord⟩⟩

/-- Settles O12: the two equations of a waiting step. -/
theorem waitingStepReadsTheKeypad : Obligations.WaitingStepReadsTheKeypad := by
  refine fun s x hmode => ⟨step_awaitKey_none hmode, fun k hk hleast => ?_⟩
  obtain ⟨hvalue, hothers, hframe⟩ := wokenState_spec s x k
  exact ⟨_, step_awaitKey_pressed hmode hk hleast, hvalue, hothers, rfl, rfl, hframe⟩

/-- Settles O13: a jump to itself writes the `pc` it found; the other two steps are the identity. -/
theorem endStatesAreFixedBySteps : Obligations.EndStatesAreFixedBySteps := by
  rintro s (⟨hmode, hdecode⟩ | ⟨⟨x, hmode⟩, hnone⟩ | ⟨info, hmode⟩)
  · exact step_running hmode hdecode
  · exact step_awaitKey_none hmode hnone
  · exact step_faulted hmode

/-- Settles O14: the reported result is `stepResult` of the two modes. -/
theorem stepReportsTheMode : Obligations.StepReportsTheMode := fun s t h =>
  ⟨stepResult s.mode t.mode, stepReported_of_step h, fun info hmode => by rw [hmode]; rfl, stepResult_of_not_faulted⟩

/-- Settles O18: the registers, slots, pixels and keys are read from constant vectors, memory from its reset contents.
-/
theorem resetStateIsTheTable : Obligations.ResetStateIsTheTable := by
  refine ⟨fun r => ?_, rfl, rfl, fun k => ?_, rfl, rfl, rfl, pixel_clear, fun k => ?_, memRead_reset_font,
    fun a => memRead_reset_zero, rfl⟩
  · exact Vector.getElem_replicate r.isLt
  · exact Vector.getElem_replicate k.isLt
  · exact Vector.getElem_replicate k.isLt

/-- Settles O19: `hostReset` is the reset state with the draw number kept. -/
theorem hostResetRestoresConstruction : Obligations.HostResetRestoresConstruction := fun s =>
  ⟨rfl, rfl, onlyChanges_draws State.reset s.draws, rfl⟩

/-- Settles O20: the word at 0x200 is 0 after reset, a gap, and a faulted machine stays as it is. -/
theorem unloadedMachineFaultsAtOnce : Obligations.UnloadedMachineFaultsAtOnce := by
  have hgap : decode State.reset.fetchWord = .error .family0 := by rw [fetchWord_reset]; rfl
  have hstep := step_gap (s := State.reset) rfl hgap
  rw [fetchWord_reset] at hstep
  exact ⟨_, hstep, raisedFault_raise State.reset .decodeGap 0x0000, run_faulted rfl⟩

end Sys2Proof.Proofs
end

section
/-! SUPPORT. The call's and the return's slots, the words of the faulting instructions, and what an instruction that
writes a flag and a result does. -/

namespace Sys2Proof.Proofs

open Sys2Proof.Machine

/-! ### The call stack (10_state.md R29) -/

theorem callState_slot (nnn : Word) (s : State) (h : s.sp.val < 16) :
    (callState nnn s h).stack[s.sp.val]? = some (s.pc + 2) := by
  simp [callState, h]

theorem callState_other_slot (nnn : Word) (s : State) (h : s.sp.val < 16) {k : Nat} (hk : k ≠ s.sp.val) :
    (callState nnn s h).stack[k]? = s.stack[k]? := by
  simp [callState, hk.symm]

theorem retState_slot (s : State) (h : 0 < s.sp.val) : s.stack[s.sp.val - 1]? = some (retState s h).pc :=
  Vector.getElem?_eq_getElem (by omega)

/-- A return from a state with the caller's frame on top resumes at the address the call pushed. -/
theorem retState_of_callState {nnn : Word} {s u : State} (h : s.sp.val < 16)
    (hstack : u.stack = (callState nnn s h).stack) (hsp : u.sp = (callState nnn s h).sp) (hpos : 0 < u.sp.val) :
    (retState u hpos).pc = s.pc + 2 ∧ (retState u hpos).sp = s.sp := by
  have htop : u.sp.val - 1 = s.sp.val := by simp [hsp, callState]
  refine ⟨?_, Fin.ext htop⟩
  have hslot := retState_slot u hpos
  rw [htop, hstack, callState_slot] at hslot
  exact (Option.some.inj hslot).symm

/-! ### The words of the faulting instructions (assumption log 4) -/

theorem encode_call {nnn : Word} (h : nnn.toNat < 4096) : encode (.call nnn) = 0x2000 + nnn := by
  apply BitVec.eq_of_toNat_eq
  rw [encode, packNNN_toNat, BitVec.toNat_add, show (0x2000 : Word).toNat = 0x2000 from rfl,
    show (0x2 : BitVec 4).toNat = 2 from rfl]
  omega

theorem packXKK_eq_ofNat (op : BitVec 4) (x : Reg) (kk : Byte) :
    packXKK op x kk = BitVec.ofNat 16 (op.toNat * 4096 + kk.toNat + 256 * x.val) := by
  have := x.isLt
  apply BitVec.eq_of_toNat_eq
  rw [packXKK_toNat, BitVec.toNat_ofNat]
  omega

/-! ### A flag and then a result (42_alu.md R140) -/

/-- `finishVFlag` meets the claim of a flag instruction for the numbers its bytes stand for. -/
theorem wroteFlagThenReg_finishVFlag (s : State) (x : Reg) {flag v : Byte} {flagValue value : Nat}
    (hflag : flag.toNat = flagValue) (hv : v.toNat = value) :
    WroteFlagThenReg x flagValue value s (s.finishVFlag x flag v) := by
  refine ⟨?_, fun hx => ?_, fun r hr hvf => ?_, State.finishVFlag_pc s x flag v, onlyChanges_finishVFlag s x flag v⟩
  · rw [State.readV_finishVFlag, if_pos rfl, hv]
  · rw [State.readV_finishVFlag, if_neg hx.symm, if_pos rfl, hflag]
  · rw [State.readV_finishVFlag, if_neg hr, if_neg hvf]

/-- An instruction whose meaning is one `finishVFlag` completes and meets the claim. -/
theorem exec_wroteFlagThenReg {i : Instr} {s : State} {x : Reg} {flag v : Byte} {flagValue value : Nat}
    (hexec : exec i s = .next (s.finishVFlag x flag v)) (hflag : flag.toNat = flagValue) (hv : v.toNat = value) :
    ∃ t, exec i s = .next t ∧ WroteFlagThenReg x flagValue value s t :=
  ⟨_, hexec, wroteFlagThenReg_finishVFlag s x hflag hv⟩

theorem byte_sub_toNat (a b : Byte) : (a - b).toNat = (256 + a.toNat - b.toNat) % 256 := by
  have := b.isLt
  rw [BitVec.toNat_sub]; omega

theorem byte_half_toNat (a : Byte) : (a >>> 1).toNat = a.toNat / 2 := by
  rw [BitVec.toNat_ushiftRight, Nat.shiftRight_eq_div_pow, Nat.pow_one]

theorem byte_double_toNat (a : Byte) : (a <<< 1).toNat = a.toNat * 2 % 256 := by
  rw [BitVec.toNat_shiftLeft, Nat.shiftLeft_eq, Nat.pow_one]

/-! ### Where a skip goes -/

theorem skipIf_pc_eq (s : State) (c : Bool) : (s.skipIf c).pc = if c = true then s.pc + 4 else s.pc + 2 := by
  cases c <;> rfl

/-- The key a register names, as the partial read of the keypad that the claims speak of. -/
theorem key_getElem?_eq {s : State} {x k : Reg} (h : (s.readV x).toNat = k.val) :
    s.key[(s.readV x).toNat]? = some s.key[k.val] := by
  rw [h]; exact Vector.getElem?_eq_getElem k.isLt

end Sys2Proof.Proofs
end

section
/-! PROOFS. The obligations about the indexed jump, calls and returns (41_control_flow.md). -/

namespace Sys2Proof.Proofs

open Sys2Proof.Machine

/-- Settles O25: one write of the indexed target to `pc`. -/
theorem indexedJumpAddsV0 : Obligations.IndexedJumpAddsV0 :=
  ⟨jpV0_decodesAs, fun nnn s => ⟨s.setPc (indexedTarget (s.readV 0) nnn), rfl, indexedTarget_toNat _ _,
    onlyChanges_setPc (onlyChanges_refl [] s) _⟩⟩

/-- Settles O26: with a free slot the call ends in `callState`. -/
theorem callPushesTheNextAddress : Obligations.CallPushesTheNextAddress := by
  refine ⟨call_decodesAs, fun nnn s hsp => ?_⟩
  have hfree : s.sp.val < 16 := by omega
  exact ⟨callState nnn s hfree, exec_call_free nnn s hfree, callState_slot nnn s hfree,
    fun k => callState_other_slot nnn s hfree, rfl, rfl, onlyChanges_callState nnn s hfree⟩

/-- Settles O27: the push answers none, and the word of the record is the call's encoding. -/
theorem callWithFullStackFaults : Obligations.CallWithFullStackFaults := fun nnn s hnnn hsp =>
  ⟨_, exec_call_full nnn s hsp, encode_call hnnn ▸ raisedFault_raise s .stackOverflow _⟩

/-- Settles O28: with a frame the return ends in `retState`, without one the pop answers none. -/
theorem returnPopsIntoPc : Obligations.ReturnPopsIntoPc := by
  refine ⟨ret_decodesAs, fun s hsp => ?_, fun s hsp => ?_⟩
  · have hpos : 0 < s.sp.val := Nat.pos_of_ne_zero hsp
    exact ⟨retState s hpos, exec_ret_occupied s hpos, rfl, retState_slot s hpos, onlyChanges_retState s hpos⟩
  · exact ⟨_, exec_ret_empty s hsp, raisedFault_raise s .stackUnderflow _⟩

/-- Settles O29: the slot the call wrote is the one the return reads. -/
theorem returnResumesAfterTheCall : Obligations.ReturnResumesAfterTheCall := by
  intro nnn s hsp
  have hfree : s.sp.val < 16 := by omega
  refine ⟨callState nnn s hfree, exec_call_free nnn s hfree, rfl, fun u hstack husp => ?_⟩
  have hpos : 0 < u.sp.val := by rw [husp]; exact Nat.succ_pos _
  obtain ⟨hpc, hsp'⟩ := retState_of_callState hfree hstack husp hpos
  exact ⟨retState u hpos, exec_ret_occupied u hpos, hpc, hsp', onlyChanges_retState u hpos⟩

end Sys2Proof.Proofs
end

section
/-! PROOFS. The obligations about the flag instructions, the random byte and the addition to `I` (42_alu.md,
43_index_memory.md). -/

namespace Sys2Proof.Proofs

open Sys2Proof.Machine

/-- Settles O35: one `finishVFlag` of the carry and the byte sum. -/
theorem addRegistersSetsTheCarry : Obligations.AddRegistersSetsTheCarry :=
  ⟨addReg_decodesAs, fun _ _ _ => exec_wroteFlagThenReg rfl (carryFlag_toNat _ _) (BitVec.toNat_add _ _)⟩

/-- Settles O36: each is one `finishVFlag` of the strict comparison and the byte difference. -/
theorem subtractionsCompareStrictly : Obligations.SubtractionsCompareStrictly :=
  ⟨sub_decodesAs, subn_decodesAs, fun _ _ _ =>
    ⟨exec_wroteFlagThenReg rfl (greaterFlag_toNat _ _) (byte_sub_toNat _ _),
      exec_wroteFlagThenReg rfl (greaterFlag_toNat _ _) (byte_sub_toNat _ _)⟩⟩

/-- Settles O37: each is one `finishVFlag` of Vx's end bit and Vx shifted. -/
theorem shiftsMoveTheOldBitToTheFlag : Obligations.ShiftsMoveTheOldBitToTheFlag :=
  ⟨shr_decodesAs, shl_decodesAs, fun _ _ _ =>
    ⟨exec_wroteFlagThenReg rfl (lowBitFlag_toNat _) (byte_half_toNat _),
      exec_wroteFlagThenReg rfl (highBitFlag_toNat _) (byte_double_toNat _)⟩⟩

/-- Settles O38: one draw and one `finishV` of the draw masked; the masks 0 and 0xFF absorb and keep it. -/
theorem randomIsTheMaskedDraw : Obligations.RandomIsTheMaskedDraw := by
  refine ⟨rnd_decodesAs, fun x kk s => ?_⟩
  have hread (r : Reg) : (s.drawByte.2.rndWith x kk s.drawByte.1).readV r =
      if r = x then kk &&& Config.randomByte s.draws else s.readV r := State.readV_finishV _ x r _
  have hx := (hread x).trans (if_pos rfl)
  refine ⟨s.drawByte.2.rndWith x kk s.drawByte.1, rfl, hx, fun hkk => ?_, fun hkk => ?_,
    fun r hr => (hread r).trans (if_neg hr), rfl, rfl, exec_onlyChanges (.rnd x kk) s _ rfl⟩
  · rw [hx, hkk]; exact BitVec.zero_and
  · rw [hx, hkk]; exact BitVec.allOnes_and

/-- Settles O40: one write of the 16-bit sum to `I` and one advance. -/
theorem addToIndexWrapsAtSixteenBits : Obligations.AddToIndexWrapsAtSixteenBits :=
  ⟨addI_decodesAs, fun x s => ⟨(s.writeI (indexPlus s.I (s.readV x))).advance 2, rfl, indexPlus_toNat _ _,
    State.advance_pc _ 2, onlyChanges_writeI_advance s _ 2⟩⟩

end Sys2Proof.Proofs
end

section
/-! PROOFS. The obligations about the keypad (45_keys_timers.md). -/

namespace Sys2Proof.Proofs

open Sys2Proof.Machine

/-- Settles O51: with a key index in Vx each is one `skipIf` on that key. -/
theorem keySkips : Obligations.KeySkips := by
  refine ⟨skp_decodesAs, sknp_decodesAs, fun x s hx => ?_⟩
  obtain ⟨k, hk⟩ : ∃ k : Reg, (s.readV x).toNat = k.val := ⟨⟨_, Nat.lt_succ_of_le hx⟩, rfl⟩
  rw [key_getElem?_eq hk]
  refine ⟨⟨_, exec_skp_key hk, ?_, onlyChanges_skipIf s _⟩, ⟨_, exec_sknp_key hk, ?_, onlyChanges_skipIf s _⟩⟩
  · simp only [skipIf_pc_eq, Option.some_inj]
  · simp only [skipIf_pc_eq, Option.some_inj, Bool.not_eq_true']

/-- Settles O52: there is no key index, and the word of the record is the instruction's encoding. -/
theorem keySkipsFaultAboveFifteen : Obligations.KeySkipsFaultAboveFifteen := fun x s hx =>
  ⟨⟨_, exec_skp_range hx, packXKK_eq_ofNat 0xE x 0x9E ▸ raisedFault_raise s .keyIndexRange _⟩,
    ⟨_, exec_sknp_range hx, packXKK_eq_ofNat 0xE x 0xA1 ▸ raisedFault_raise s .keyIndexRange _⟩⟩

/-- Settles O53: with a key pressed the instruction is one completed key read. -/
theorem keyWaitTakesTheLeastKey : Obligations.KeyWaitTakesTheLeastKey :=
  ⟨ldKey_decodesAs, fun x k s hk hleast =>
    ⟨_, exec_ldKey_pressed ((leastPressed_eq_some s.key k).2 ⟨hk, hleast⟩), wroteReg_completeKey s x k⟩⟩

/-- Settles O54: the wait writes the mode only, the keypad write leaves the mode, and the next step is a waiting step
with a key pressed. -/
theorem keyWaitEndsByAKeyPress : Obligations.KeyWaitEndsByAKeyPress := by
  intro x s hnone
  refine ⟨{ s with mode := .awaitKey x }, exec_ldKey_none ((leastPressed_eq_none s.key).2 hnone), rfl, rfl,
    onlyChanges_mode s _, fun keys k hk hleast => ⟨rfl, ?_⟩⟩
  obtain ⟨hvalue, hothers, hframe⟩ := wokenState_spec (State.setKeys { s with mode := .awaitKey x } keys) x k
  exact ⟨_, step_awaitKey_pressed rfl hk hleast, hvalue, hothers, rfl, rfl,
    onlyChanges_mono (onlyChanges_trans (onlyChanges_key _ keys) hframe) (by simp), rfl⟩

end Sys2Proof.Proofs
end

section
/-! SUPPORT. Block writes of the state's memory: what stands in the block, what is kept outside it, and what the next
fetch reads from it. -/

namespace Sys2Proof.Proofs

open Sys2Proof.Machine

/-! ### A block write from `I` on (43_index_memory.md R170) -/

theorem memRead_memWriteBytes_inside {s : State} {base k : Nat} {bs : List Byte} (hwf : Memory.wf s.mem)
    (hlen : bs.length ≤ 4096) (hk : k < bs.length) : (s.memWriteBytes base bs).memRead (base + k) = bs[k] :=
  Memory.read_writeBytes_inside bs s.mem base k hwf hlen hk

theorem memRead_memWriteBytes_outside {s : State} {base a : Nat} {bs : List Byte} (hwf : Memory.wf s.mem)
    (ha : ∀ k, k < bs.length → maskAddr a ≠ maskAddr (base + k)) :
    (s.memWriteBytes base bs).memRead a = s.memRead a :=
  Memory.read_writeBytes_outside bs s.mem base a hwf ha

/-- What every store of bytes from `I` on does, as its claims say it. -/
theorem exec_storesBytes {i : Instr} {s : State} {bs : List Byte}
    (hexec : exec i s = .next ((s.memWriteBytes (s.indexAddr 0) bs).advance 2)) (hwf : Memory.wf s.mem)
    (hlen : bs.length ≤ 4096) :
    ∃ t, exec i s = .next t ∧ (∀ (k : Nat) (hk : k < bs.length), t.memRead (s.indexAddr k) = bs[k]) ∧
      KeepsMemoryOutside bs.length s t ∧ t.pc = s.pc + 2 ∧ OnlyChanges [.mem] s t :=
  ⟨_, hexec, fun _ hk => memRead_memWriteBytes_inside hwf hlen hk, fun _ ha => memRead_memWriteBytes_outside hwf ha,
    rfl, onlyChanges_memWriteBytes_advance s _ bs 2⟩

theorem exec_storeRegs_storesBytes (x : Reg) {s : State} (hwf : Memory.wf s.mem) :
    ∃ t, exec (.storeRegs x) s = .next t ∧ (∀ k : Reg, k ≤ x → t.memRead (s.indexAddr k.val) = s.readV k) ∧
      KeepsMemoryOutside (x.val + 1) s t ∧ t.pc = s.pc + 2 ∧ OnlyChanges [.mem] s t := by
  have hlen := State.readVUpTo_length s x
  obtain ⟨t, hexec, hbytes, houtside, hpc, hframe⟩ :=
    exec_storesBytes (i := .storeRegs x) (bs := s.readVUpTo x) rfl hwf (by have := x.isLt; omega)
  rw [hlen] at houtside
  refine ⟨t, hexec, fun k hk => ?_, houtside, hpc, hframe⟩
  have hin : k.val < (s.readVUpTo x).length := hlen ▸ Nat.lt_succ_of_le hk
  exact (hbytes k.val hin).trans (State.readVUpTo_getElem s x k hin)

/-! ### Fetching what was stored (20_memory.md R70) -/

theorem memRead_congr {s : State} {a b : Nat} (h : maskAddr a = maskAddr b) : s.memRead a = s.memRead b :=
  Memory.read_congr s.mem a b h

theorem maskAddr_add_congr {a b : Nat} (h : maskAddr a = maskAddr b) (k : Nat) : maskAddr (a + k) = maskAddr (b + k) :=
  Nat.ModEq.add_right k h

/-- The word fetched where two bytes have just been stored, by an address that masks to `pc`. -/
theorem fetchWord_of_stored {s : State} {base : Nat} {b0 b1 : Byte} (hbase : maskAddr s.pc.toNat = maskAddr base)
    (h0 : s.memRead base = b0) (h1 : s.memRead (base + 1) = b1) : s.fetchWord = wordOfBytes b0 b1 := by
  rw [State.fetchWord, memRead_congr hbase, memRead_congr (maskAddr_add_congr hbase 1), h0, h1]

theorem fetchWord_withWordAtPc {s : State} (hwf : Memory.wf s.mem) (w : Word) : (s.withWordAtPc w).fetchWord = w := by
  have hbyte (k : Nat) (hk : k < 2) : (s.withWordAtPc w).memRead (s.pc.toNat + k) = [hiByte w, loByte w][k] :=
    memRead_memWriteBytes_inside hwf (by simp) hk
  have hfetch : (s.withWordAtPc w).fetchWord = wordOfBytes (hiByte w) (loByte w) :=
    fetchWord_of_stored (base := s.pc.toNat) rfl (hbyte 0 (by decide)) (hbyte 1 (by decide))
  rw [hfetch, wordOfBytes_hi_lo]

/-- The opcode table numbers the bits of a word as the word itself does. -/
theorem tableWord_toNat (w : Word) : tableWord 16 w.toNat = w := by
  rw [tableWord, Nat.mod_eq_of_lt w.isLt, BitVec.ofNat_toNat, BitVec.setWidth_eq]

theorem decodeTableWord_encode {i : Instr} (hwf : i.wellFormed = true) :
    decodeTableWord 16 (encode i).toNat = some i := by
  have hbytes : decodeBytes [hiByte (encode i), loByte (encode i)] = .ok (i, []) := decodeBytes_encodeBytes i hwf []
  simp only [decodeTableWord, tableWord_toNat, hbytes]

/-! ### Images (20_memory.md R66) -/

/-- An image that fits ends inside memory, so no address of it wraps. -/
theorem memRead_image {s : State} {image : List Byte} {k : Nat} (hwf : Memory.wf s.mem) (hlen : image.length ≤ 3584)
    (hk : k < image.length) : (s.memWriteBytes 0x200 image).memRead (0x200 + k) = image[k] :=
  memRead_memWriteBytes_inside hwf (by omega) hk

theorem memRead_outside_image {s : State} {image : List Byte} {a : Nat} (hwf : Memory.wf s.mem)
    (hlen : image.length ≤ 3584) (ha : a < 4096) (hout : a < 0x200 ∨ 0x200 + image.length ≤ a) :
    (s.memWriteBytes 0x200 image).memRead a = s.memRead a := by
  refine memRead_memWriteBytes_outside hwf fun k hk => ?_
  rw [maskAddr_of_lt a ha, maskAddr_of_lt _ (by omega)]
  omega

/-- The machine after a boot: reset, the image stored at 0x200, the keypad written (70_reset_and_hazards.md R262). -/
def bootState (s : State) (image : List Byte) (keys : Keypad) : State :=
  (s.hostReset.memWriteBytes Config.progBase.toNat image).setKeys keys

theorem boot_fits (s : State) {image : List Byte} (keys : Keypad) (h : image.length ≤ Config.progMax) :
    s.boot image keys = .ok (bootState s image keys) := by
  simp only [State.boot, load_fits s.hostReset h, bootState]

/-- The reset memory is canonical, so the image stands in the booted machine's memory. -/
theorem memRead_bootState {s : State} {image : List Byte} {keys : Keypad} {k : Nat} (hlen : image.length ≤ 3584)
    (hk : k < image.length) : (bootState s image keys).memRead (0x200 + k) = image[k] :=
  memRead_image (s := s.hostReset) State.reset_mem_wf hlen hk

theorem onlyChanges_bootState (s : State) (image : List Byte) (keys : Keypad) :
    OnlyChanges [.mem, .key, .draws] State.reset (bootState s image keys) :=
  onlyChanges_mono (onlyChanges_trans (onlyChanges_draws State.reset s.draws)
    (onlyChanges_trans (onlyChanges_mem s.hostReset _) (onlyChanges_key _ keys))) (by simp)

end Sys2Proof.Proofs
end

section
/-! PROOFS. The obligations about memory transfers, stored code and loaded images (43_index_memory.md, 20_memory.md). -/

namespace Sys2Proof.Proofs

open Sys2Proof.Machine

/-- Settles O7: the two bytes at `pc` are the encoding's, so the step fetches and decodes it. -/
theorem placedInstructionRunsNext : Obligations.PlacedInstructionRunsNext := by
  refine fun s i hmem hwf => ⟨decodeTableWord_encode hwf, step_running rfl ?_⟩
  rw [State.withFetchWord, tableWord_toNat, fetchWord_withWordAtPc hmem, decode_encode i hwf]

/-- Settles O42: the three digits are stored in order, and each is below 256. -/
theorem decimalDigitsAreStored : Obligations.DecimalDigitsAreStored := by
  refine ⟨ldB_decodesAs, fun x s hwf => ?_⟩
  obtain ⟨t, hexec, hbytes, houtside, hpc, hframe⟩ :=
    exec_storesBytes (i := .ldB x) (bs := bcdDigits (s.readV x)) rfl hwf (by simp [bcdDigits])
  have hlt := (s.readV x).isLt
  have hdigit (d : Nat) (hd : d < 256) : (BitVec.ofNat 8 d).toNat = d := Nat.mod_eq_of_lt hd
  refine ⟨t, hexec, ?_, ?_, ?_, houtside, hpc, hframe⟩
  · exact (congrArg BitVec.toNat (hbytes 0 (by simp [bcdDigits]))).trans (hdigit _ (by omega))
  · exact (congrArg BitVec.toNat (hbytes 1 (by simp [bcdDigits]))).trans (hdigit _ (by omega))
  · exact (congrArg BitVec.toNat (hbytes 2 (by simp [bcdDigits]))).trans (hdigit _ (by omega))

/-- Settles O43: the registers up to Vx are one block of at most 16 bytes. -/
theorem registersAreStoredInOrder : Obligations.RegistersAreStoredInOrder :=
  ⟨storeRegs_decodesAs, fun x _ hwf => exec_storeRegs_storesBytes x hwf⟩

/-- Settles O44: the bytes read go to the registers up to Vx, in order. -/
theorem registersAreLoadedInOrder : Obligations.RegistersAreLoadedInOrder :=
  ⟨loadRegs_decodesAs, fun x s => ⟨_, rfl, fun k hk => (readV_loadRegs s x k).trans (if_pos hk),
    fun k hk => (readV_loadRegs s x k).trans (if_neg (not_le.2 hk)), by rw [State.writeVFrom_eq]; rfl,
    onlyChanges_writeVFrom_advance s 0 _ 2⟩⟩

/-- Settles O45: the load reads the addresses the store wrote. -/
theorem storeThenLoadRestoresRegisters : Obligations.StoreThenLoadRestoresRegisters := by
  intro x s hwf
  obtain ⟨t, hexec, hbytes, -⟩ := exec_storeRegs_storesBytes x hwf
  refine ⟨t, hexec, fun u hI hmem => ⟨_, rfl, fun k hk => ?_⟩⟩
  have haddr : u.indexAddr k.val = s.indexAddr k.val := by rw [State.indexAddr, State.indexAddr, hI]
  exact (readV_loadRegs u x k).trans (by rw [if_pos hk, haddr, hmem, hbytes k hk])

/-- Settles O46: the store's first two bytes stand at the address of the next instruction. -/
theorem storedCodeIsFetchedNext : Obligations.StoredCodeIsFetchedNext := by
  intro x s hwf hx haddr
  obtain ⟨t, hexec, hbytes, -, hpc, -⟩ := exec_storeRegs_storesBytes x hwf
  refine ⟨t, hexec, fetchWord_of_stored (base := s.indexAddr 0) ?_ (hbytes 0 (Fin.zero_le x)) (hbytes 1 hx)⟩
  rw [hpc]; exact haddr.symm

/-- Settles O57: the image is one block write at 0x200, or a refusal. -/
theorem loadCopiesTheImage : Obligations.LoadCopiesTheImage := by
  refine fun image s hwf => ⟨fun hlen => ?_, fun hlen => ⟨load_tooLong s hlen, hostOp_load_tooLong s hlen⟩⟩
  exact ⟨_, load_fits s hlen, fun _ => memRead_image hwf hlen, fun _ => memRead_outside_image hwf hlen, rfl,
    onlyChanges_mem s _, hostOp_load_fits s hlen⟩

/-- Settles O58: the booted machine's first two image bytes stand at 0x200, where `pc` is. -/
theorem bootedMachineStartsTheImage : Obligations.BootedMachineStartsTheImage := by
  intro s b0 b1 rest keys hrest
  have hlen : (b0 :: b1 :: rest).length ≤ 3584 := by simp only [List.length_cons]; omega
  have hfetch : (bootState s (b0 :: b1 :: rest) keys).fetchWord = wordOfBytes b0 b1 :=
    fetchWord_of_stored (base := 0x200) rfl (memRead_bootState hlen (k := 0) (by simp))
      (memRead_bootState hlen (k := 1) (by simp))
  exact ⟨_, boot_fits s keys hlen, rfl, rfl, hfetch, rfl, onlyChanges_bootState s _ keys,
    fun i hi => step_running rfl (hfetch ▸ hi)⟩

end Sys2Proof.Proofs
end

section
/-! SUPPORT. What `DRW Vx, Vy, n` does to the framebuffer and to VF, in the words of the claims about it. -/

namespace Sys2Proof.Proofs

open Sys2Proof.Machine

/-! ### The sprite of a state (44_display.md R191) -/

/-- The rows of the sprite are the bytes from `I` on. -/
theorem spriteByte_getD (s : State) {n r : Nat} (hr : r < n) :
    (s.memReadBytes (s.indexAddr 0) n).getD r 0 = s.memRead (s.indexAddr r) := by
  have hlt : r < (Memory.readBytes s.mem (s.indexAddr 0) n).length := by rwa [Memory.readBytes_length]
  exact (List.getD_eq_getElem _ _ hlt).trans (Memory.readBytes_getElem _ _ _ _ hlt)

/-- The pixels that `drawRows_spec` toggles are those under the sprite. -/
theorem underSprite_iff (s : State) (x y : Reg) (n px py : Nat) (hpx : px < 64) (hpy : py < 32) :
    (∃ r c, r < (s.memReadBytes (s.indexAddr 0) n).length ∧ c < 8 ∧
      ((s.memReadBytes (s.indexAddr 0) n).getD r 0).getLsbD (7 - c) = true ∧
      px % 64 = (spriteColumn (s.readV x) + c) % 64 ∧ py % 32 = (spriteRow (s.readV y) + r) % 32) ↔
    UnderSprite s x y n px py := by
  rw [State.memReadBytes, Memory.readBytes_length, Nat.mod_eq_of_lt hpx, Nat.mod_eq_of_lt hpy]
  refine exists_congr fun r => exists_congr fun c => and_congr_right fun hr => and_congr_right fun _ => ?_
  rw [← State.memReadBytes, spriteByte_getD s hr]
  rfl

/-- The sprite depends on memory, `I` and the two coordinates only. -/
theorem underSprite_congr {s t : State} {x y : Reg} {n px py : Nat} (hmem : t.mem = s.mem) (hI : t.I = s.I)
    (hx : t.readV x = s.readV x) (hy : t.readV y = s.readV y) :
    UnderSprite t x y n px py ↔ UnderSprite s x y n px py := by
  simp only [UnderSprite, State.memRead, State.indexAddr, hmem, hI, hx, hy]

/-- A sprite with a set bit covers a pixel. -/
theorem exists_underSprite {s : State} (x y : Reg) {n r : Nat} (hr : r < n) (hbyte : s.memRead (s.indexAddr r) ≠ 0) :
    ∃ px py, px < 64 ∧ py < 32 ∧ UnderSprite s x y n px py := by
  obtain ⟨b, hb, hbit⟩ : ∃ b, b < 8 ∧ (s.memRead (s.indexAddr r)).getLsbD b = true := by
    by_contra hnone
    push Not at hnone
    exact hbyte (BitVec.eq_of_getLsbD_eq fun b hb => by simpa using hnone b hb)
  refine ⟨_, _, Nat.mod_lt _ (by decide), Nat.mod_lt _ (by decide), r, 7 - b, hr, by omega, ?_, rfl, rfl⟩
  rwa [Nat.sub_sub_self (by omega)]

/-! ### The drawing of a sprite of at most 32 rows -/

section Draw

variable {s : State} {n : Nat}

/-- A pixel of the screen depends on its coordinates modulo the screen's size (92_eei_decisions.md D14). -/
theorem pixel_mod (fb : Framebuffer) (x y : Nat) :
    Framebuffer.pixel fb (x % 64) (y % 32) = Framebuffer.pixel fb x y := by
  simp only [Framebuffer.pixel, Nat.mod_mod]

theorem drawSprite_toggled (hn : n ≤ 32) (x y : Reg) {px py : Nat} (hpx : px < 64) (hpy : py < 32) :
    Toggled (UnderSprite s x y n px py) (Framebuffer.pixel s.fb px py)
      (Framebuffer.pixel (s.drawSprite x y n).1 px py) := by
  have hlen : (s.memReadBytes (s.indexAddr 0) n).length ≤ 32 := by rwa [State.memReadBytes, Memory.readBytes_length]
  exact ((drawRows_spec _ hlen (s.fb, false) _ _).1 px py).congr (underSprite_iff s x y n px py hpx hpy)

/-- A collision is noted exactly when a pixel under the sprite was on. -/
theorem drawSprite_collides_iff (hn : n ≤ 32) (x y : Reg) :
    (s.drawSprite x y n).2 = true ↔
      ∃ px py, px < 64 ∧ py < 32 ∧ UnderSprite s x y n px py ∧ Framebuffer.pixel s.fb px py = true := by
  have hlen : (s.memReadBytes (s.indexAddr 0) n).length ≤ 32 := by rwa [State.memReadBytes, Memory.readBytes_length]
  rw [State.drawSprite, (drawRows_spec _ hlen (s.fb, false) _ _).2]
  simp only [Bool.false_eq_true, false_or]
  constructor
  · rintro ⟨r, c, hr, hc, hbit, hon⟩
    have hpx : (spriteColumn (s.readV x) + c) % 64 < 64 := Nat.mod_lt _ (by decide)
    have hpy : (spriteRow (s.readV y) + r) % 32 < 32 := Nat.mod_lt _ (by decide)
    refine ⟨_, _, hpx, hpy, (underSprite_iff s x y n _ _ hpx hpy).1 ⟨r, c, hr, hc, hbit, ?_, ?_⟩, ?_⟩
    · exact Nat.mod_mod _ _
    · exact Nat.mod_mod _ _
    · rwa [pixel_mod]
  · rintro ⟨px, py, hpx, hpy, hunder, hon⟩
    obtain ⟨r, c, hr, hc, hbit, hx, hy⟩ := (underSprite_iff s x y n px py hpx hpy).2 hunder
    exact ⟨r, c, hr, hc, hbit, by rwa [← pixel_mod, ← hx, ← hy, pixel_mod]⟩

/-! ### The instruction -/

/-- The state in which a draw ends. -/
def drawState (s : State) (x y : Reg) (n : Nat) : State :=
  (({ s with fb := (s.drawSprite x y n).1 }.writeV VF (collisionFlag (s.drawSprite x y n).2)).advance 2)

theorem exec_drw (s : State) (x y : Reg) (n : Nat) : exec (.drw x y n) s = .next (drawState s x y n) := rfl

theorem readV_drawState (x y r : Reg) :
    (drawState s x y n).readV r = if r = VF then collisionFlag (s.drawSprite x y n).2 else s.readV r :=
  State.readV_writeV _ VF r _

theorem readV_drawState_of_ne (x y : Reg) {r : Reg} (hr : r ≠ VF) : (drawState s x y n).readV r = s.readV r :=
  (readV_drawState x y r).trans (if_neg hr)

theorem readVF_drawState_one (hn : n ≤ 32) (x y : Reg)
    (h : ∃ px py, px < 64 ∧ py < 32 ∧ UnderSprite s x y n px py ∧ Framebuffer.pixel s.fb px py = true) :
    (drawState s x y n).readV VF = 1 := by
  rw [readV_drawState, if_pos rfl, (drawSprite_collides_iff hn x y).2 h]
  rfl

theorem readVF_drawState_zero (hn : n ≤ 32) (x y : Reg)
    (h : ∀ px py, px < 64 → py < 32 → UnderSprite s x y n px py → Framebuffer.pixel s.fb px py = false) :
    (drawState s x y n).readV VF = 0 := by
  have hnone : (s.drawSprite x y n).2 = false := by
    rw [Bool.eq_false_iff, ne_eq, drawSprite_collides_iff hn x y]
    rintro ⟨px, py, hpx, hpy, hunder, hon⟩
    exact absurd (h px py hpx hpy hunder) (by rw [hon]; decide)
  rw [readV_drawState, if_pos rfl, hnone]
  rfl

/-- The first draw leaves the sprite where it is when the coordinates are not in VF. -/
theorem underSprite_drawState {x y : Reg} (hx : x ≠ VF) (hy : y ≠ VF) {px py : Nat} :
    UnderSprite (drawState s x y n) x y n px py ↔ UnderSprite s x y n px py :=
  underSprite_congr rfl rfl (readV_drawState_of_ne x y hx) (readV_drawState_of_ne x y hy)

end Draw

/-- Two toggles on one condition cancel. -/
theorem toggled_twice {p : Prop} {a b c : Bool} (h : Toggled p a b) (h' : Toggled p b c) : c = a := by
  by_cases hp : p
  · rw [h'.not hp, h.not hp, Bool.not_not]
  · rw [h'.same hp, h.same hp]

/-- A pixel that was off is on exactly when it has been toggled. -/
theorem on_iff_of_toggled_off {p : Prop} {new : Bool} (h : Toggled p false new) : new = true ↔ p := by
  by_cases hp : p
  · simp only [h.not hp, hp, Bool.not_false]
  · simp only [h.same hp, hp, Bool.false_eq_true]

end Sys2Proof.Proofs
end

section
/-! PROOFS. The obligations about drawing sprites (44_display.md). -/

namespace Sys2Proof.Proofs

open Sys2Proof.Machine

/-- Settles O48: the draw toggles the pixels under the sprite, and VF is the collision flag. -/
theorem drawTogglesExactlyTheSprite : Obligations.DrawTogglesExactlyTheSprite := by
  refine ⟨drw_decodesAs, fun x y n s hn => ?_⟩
  have hn : n ≤ 32 := by omega
  refine ⟨_, exec_drw s x y n, fun px py hpx hpy => ?_, readVF_drawState_one hn x y, readVF_drawState_zero hn x y,
    fun r => readV_drawState_of_ne x y, rfl, exec_onlyChanges (.drw x y n) s _ (exec_drw s x y n)⟩
  have htoggled := drawSprite_toggled (s := s) hn x y hpx hpy
  exact ⟨htoggled.not, htoggled.same⟩

/-- Settles O49: the sprite stays where it is, so every pixel is toggled twice or not at all; on a clear screen the
first draw turns a pixel on, which the second finds. -/
theorem drawingTwiceRestoresTheScreen : Obligations.DrawingTwiceRestoresTheScreen := by
  intro x y n s hn hx hy
  have hn : n ≤ 32 := by omega
  have hfirst {px py : Nat} (hpx : px < 64) (hpy : py < 32) := drawSprite_toggled (s := s) hn x y hpx hpy
  refine ⟨_, _, exec_drw s x y n, exec_drw _ x y n, ?_, fun hclear ⟨r, hr, hbyte⟩ => ⟨?_, ?_⟩⟩
  · refine Framebuffer.ext_pixel _ _ fun px py hpx hpy => toggled_twice (hfirst hpx hpy) ?_
    exact (drawSprite_toggled hn x y hpx hpy).congr (underSprite_drawState hx hy)
  · exact readVF_drawState_zero hn x y fun px py _ _ _ => hclear px py
  · obtain ⟨px, py, hpx, hpy, hunder⟩ := exists_underSprite x y hr hbyte
    refine readVF_drawState_one hn x y ⟨px, py, hpx, hpy, (underSprite_drawState hx hy).2 hunder, ?_⟩
    exact ((hfirst hpx hpy).not hunder).trans (by rw [hclear]; rfl)

/-- Settles O50: clearing leaves the sprite where it is, and on a clear screen a toggled pixel is one that is on. -/
theorem clearThenDrawShowsTheSprite : Obligations.ClearThenDrawShowsTheSprite := by
  intro x y n s hn
  have hn : n ≤ 32 := by omega
  refine ⟨{ s with fb := Framebuffer.clear }.advance 2, _, rfl, exec_drw _ x y n,
    readVF_drawState_zero hn x y fun px py _ _ _ => pixel_clear px py, fun px py hpx hpy => ?_⟩
  have hsame : UnderSprite ({ s with fb := Framebuffer.clear }.advance 2) x y n px py ↔ UnderSprite s x y n px py :=
    underSprite_congr rfl rfl rfl rfl
  have htoggled := (drawSprite_toggled hn x y hpx hpy).congr hsame
  rw [State.advance_fb, pixel_clear] at htoggled
  exact on_iff_of_toggled_off htoggled

end Sys2Proof.Proofs
end
